-- ==== Sys2Proof/Word.lean ====
section
/-! DEFINITION. The word types of soundly-BRF: bit strings, bytes, and the transaction of 00_scope.md R2. -/

namespace Sys2Proof

/-- A bit string, first-written bit first (00_scope.md R8). -/
abbrev Bits := List Bool

/-- One byte of the output buffer or of a frame header. -/
abbrev Byte := BitVec 8

/-- One command transaction: the command word and the argument word (30_encoding.md R70).
Both are transferred whole, so no byte order applies to them (20_memory.md R67). -/
structure Transaction where
  cmd : BitVec 32
  arg : BitVec 64
deriving DecidableEq, Repr

end Sys2Proof
end

