-- ==== Sys2Proof/Syntax.lean ====
section
/-! DEFINITION. The commands of soundly-BRF, one constructor for each row of spec/opcode_table.json. -/

namespace Sys2Proof

/-- A command with its operand fields, in the operand order of 30_encoding.md R79 and at the widths of R74. -/
inductive Instr where
  /-- NOP (43_host_access.md R190). -/
  | nop
  /-- CLEAR (40_bitwriter.md R104). -/
  | clear
  /-- WRITE_BITS `W`, `V` (40_bitwriter.md R100). -/
  | writeBits (w : BitVec 7) (v : BitVec 64)
  /-- WRITE_UNARY `N` (40_bitwriter.md R101). -/
  | writeUnary (n : BitVec 64)
  /-- ALIGN (40_bitwriter.md R102). -/
  | align
  /-- FINISH (40_bitwriter.md R103). -/
  | finish
  /-- READ_OUT `ADDR` (43_host_access.md R192). -/
  | readOut (addr : BitVec 32)
  /-- READ_REG `REG` (43_host_access.md R191). -/
  | readReg (reg : BitVec 8)
  /-- LOAD_RES `IDX`, `VAL` (41_rice.md R130). -/
  | loadRes (idx : BitVec 16) (val : BitVec 32)
  /-- RICE_CHOOSE `K`, `START`, `COUNT` (41_rice.md R134). -/
  | riceChoose (k : BitVec 5) (start count : BitVec 16)
  /-- RICE_ENCODE `K`, `START`, `COUNT` (41_rice.md R135). -/
  | riceEncode (k : BitVec 5) (start count : BitVec 16)
  /-- RICE_PARTITION `PMIN`, `PMAX`, `PRED`, `BS` (41_rice.md R139). -/
  | ricePartition (pmin pmax : BitVec 4) (pred : BitVec 6) (bs : BitVec 16)
  /-- RICE_EMIT (41_rice.md R143). -/
  | riceEmit
  /-- READ_KTAB `IDX` (41_rice.md R146). -/
  | readKtab (idx : BitVec 15)
  /-- FRAME_HEADER `STRAT`, `BS`, `RATE`, `CH`, `BPS`, `NUM` (42_frame_header.md R168). -/
  | frameHeader (strat : BitVec 1) (bs : BitVec 16) (rate : BitVec 18) (ch : BitVec 4) (bps : BitVec 6)
      (num : BitVec 36)
  /-- SEQ_SET `SSTRAT`, `NEXT` (42_frame_header.md R170). -/
  | seqSet (sstrat : BitVec 2) (next : BitVec 36)
deriving DecidableEq, Repr

end Sys2Proof
end

