-- ==== Sys2Proof/WellFormed.lean ====
section
/-! DEFINITION. Well-formed command lines (30_encoding.md R79, R80).

An `Instr` is well-formed by its types: every operand is a bit vector of the width R74 gives its field. The check
stands one level up, on the line a host writes with plain numbers: the assembler "rejects an operand that does not
fit its field". -/

namespace Sys2Proof

/-- A command line as R79 writes it, its operands plain numbers of any size. -/
inductive AsmLine where
  | nop
  | clear
  | writeBits (w v : Nat)
  | writeUnary (n : Nat)
  | align
  | finish
  | readOut (addr : Nat)
  | readReg (reg : Nat)
  | loadRes (idx : Nat) (val : Int)
  | riceChoose (k start count : Nat)
  | riceEncode (k start count : Nat)
  | ricePartition (pmin pmax pred bs : Nat)
  | riceEmit
  | readKtab (idx : Nat)
  | frameHeader (strat bs rate ch bps num : Nat)
  | seqSet (sstrat next : Nat)
deriving DecidableEq, Repr

/-- The pseudo-commands of R80. -/
inductive PseudoLine where
  | putByte (v : Nat)
  | putU16 (v : Nat)
  | putSigned (w : Nat) (v : Int)
  | readStatus
  | riceSection (pmin pmax pred bs : Nat)
  | writeZeros (n : Nat)
deriving DecidableEq, Repr

/-- The unsigned number `v` fits a field of `w` bits. -/
abbrev fitsField (w v : Nat) : Prop := v < 2 ^ w

/-- Every operand of the line fits its field (R74, R79). -/
def AsmLine.wellFormed : AsmLine → Bool
  | .nop | .clear | .align | .finish | .riceEmit => true
  | .writeBits w v => fitsField 7 w ∧ fitsField 64 v
  | .writeUnary n => fitsField 64 n
  | .readOut addr => fitsField 32 addr
  | .readReg reg => fitsField 8 reg
  | .loadRes idx val => fitsField 16 idx ∧ -2 ^ 31 ≤ val ∧ val ≤ 2 ^ 31 - 1
  | .riceChoose k start count => fitsField 5 k ∧ fitsField 16 start ∧ fitsField 16 count
  | .riceEncode k start count => fitsField 5 k ∧ fitsField 16 start ∧ fitsField 16 count
  | .ricePartition pmin pmax pred bs =>
    fitsField 4 pmin ∧ fitsField 4 pmax ∧ fitsField 6 pred ∧ fitsField 16 bs
  | .readKtab idx => fitsField 15 idx
  | .frameHeader strat bs rate ch bps num =>
    fitsField 1 strat ∧ fitsField 16 bs ∧ fitsField 18 rate ∧ fitsField 4 ch ∧ fitsField 6 bps ∧ fitsField 36 num
  | .seqSet sstrat next => fitsField 2 sstrat ∧ fitsField 36 next

end Sys2Proof
end

