-- ==== Sys2Proof/Decode.lean ====
section
/-! DEFINITION. Decoding and encoding of transactions (30_encoding.md R70 to R76, R81). -/

namespace Sys2Proof

/-- Why a transaction is no command. Each of the three raises ILLEGAL (60_exceptions.md R222). -/
inductive DecodeError where
  /-- `CMD[31:26]` is 0x10..0x3F (R71). -/
  | reservedOpcode
  /-- A bit of `CMD` that the format assigns to no field is 1 (R72). -/
  | reservedCmdBits
  /-- A bit of `ARG` that the format assigns to no field is 1 (R72). -/
  | reservedArgBits
deriving DecidableEq, Repr

/-- One row of R73, with the operand fields of its format (R74). -/
structure OpcodeRow where
  mnemonic : String
  /-- `CMD` match. -/
  pattern : BitVec 32
  /-- `CMD` mask. -/
  mask : BitVec 32
  /-- `ARG` bits that must be zero. -/
  argZero : BitVec 64
  operands : Transaction → Instr

/-- `v[lo+n-1 : lo]` (00_scope.md R6). -/
abbrev field {w : Nat} (lo n : Nat) (v : BitVec w) : BitVec n := v.extractLsb' lo n

/-- `CMD[31:26]` (R71). -/
abbrev opcodeOf (cmd : BitVec 32) : BitVec 6 := field 26 6 cmd

/-- The rows of R73 for opcodes 0x00..0x07. -/
def opcodeRowsLow : List OpcodeRow := [
  ⟨"NOP", 0x00000000, 0xFFFFFFFF, 0xFFFFFFFFFFFFFFFF, fun _ => .nop⟩,
  ⟨"CLEAR", 0x04000000, 0xFFFFFFFF, 0xFFFFFFFFFFFFFFFF, fun _ => .clear⟩,
  ⟨"WRITE_BITS", 0x08000000, 0xFFFFFF80, 0, fun t => .writeBits (field 0 7 t.cmd) t.arg⟩,
  ⟨"WRITE_UNARY", 0x0C000000, 0xFFFFFFFF, 0, fun t => .writeUnary t.arg⟩,
  ⟨"ALIGN", 0x10000000, 0xFFFFFFFF, 0xFFFFFFFFFFFFFFFF, fun _ => .align⟩,
  ⟨"FINISH", 0x14000000, 0xFFFFFFFF, 0xFFFFFFFFFFFFFFFF, fun _ => .finish⟩,
  ⟨"READ_OUT", 0x18000000, 0xFFFFFFFF, 0xFFFFFFFF00000000, fun t => .readOut (field 0 32 t.arg)⟩,
  ⟨"READ_REG", 0x1C000000, 0xFFFFFF00, 0xFFFFFFFFFFFFFFFF, fun t => .readReg (field 0 8 t.cmd)⟩]

/-- The rows of R73 for opcodes 0x08..0x0F. -/
def opcodeRowsHigh : List OpcodeRow := [
  ⟨"LOAD_RES", 0x20000000, 0xFFFF0000, 0xFFFFFFFF00000000,
    fun t => .loadRes (field 0 16 t.cmd) (field 0 32 t.arg)⟩,
  ⟨"RICE_CHOOSE", 0x24000000, 0xFFFFFFE0, 0xFFFFFFFF00000000,
    fun t => .riceChoose (field 0 5 t.cmd) (field 0 16 t.arg) (field 16 16 t.arg)⟩,
  ⟨"RICE_ENCODE", 0x28000000, 0xFFFFFFE0, 0xFFFFFFFF00000000,
    fun t => .riceEncode (field 0 5 t.cmd) (field 0 16 t.arg) (field 16 16 t.arg)⟩,
  ⟨"RICE_PARTITION", 0x2C000000, 0xFFFFC000, 0xFFFFFFFFFFFF0000,
    fun t => .ricePartition (field 0 4 t.cmd) (field 4 4 t.cmd) (field 8 6 t.cmd) (field 0 16 t.arg)⟩,
  ⟨"RICE_EMIT", 0x30000000, 0xFFFFFFFF, 0xFFFFFFFFFFFFFFFF, fun _ => .riceEmit⟩,
  ⟨"READ_KTAB", 0x34000000, 0xFFFFFFFF, 0xFFFFFFFFFFFF8000, fun t => .readKtab (field 0 15 t.arg)⟩,
  ⟨"FRAME_HEADER", 0x38000000, 0xFC000007, 0xFC00000000000000,
    fun t => .frameHeader (field 3 1 t.cmd) (field 36 16 t.arg) (field 8 18 t.cmd) (field 4 4 t.cmd)
      (field 52 6 t.arg) (field 0 36 t.arg)⟩,
  ⟨"SEQ_SET", 0x3C000000, 0xFFFFFFFC, 0xFFFFFFF000000000,
    fun t => .seqSet (field 0 2 t.cmd) (field 0 36 t.arg)⟩]

/-- The opcode map (R73). -/
def opcodeTable : List OpcodeRow := opcodeRowsLow ++ opcodeRowsHigh

/-- "A pair `(CMD, ARG)` is the command of row r iff `CMD & mask_r = match_r` and `ARG & argzero_r = 0`" (R73). -/
def OpcodeRow.isCommand (r : OpcodeRow) (t : Transaction) : Bool :=
  t.cmd &&& r.mask == r.pattern && t.arg &&& r.argZero == 0

/-- Total decoding (R81): the row with the transaction's opcode, then its reserved bits, then its fields.
Operand values a command rejects are not decode errors (R76). -/
def decode (t : Transaction) : Except DecodeError Instr :=
  match opcodeTable.find? fun r => opcodeOf r.pattern == opcodeOf t.cmd with
  | none => .error .reservedOpcode
  | some r =>
    if t.cmd &&& r.mask ≠ r.pattern then .error .reservedCmdBits
    else if t.arg &&& r.argZero ≠ 0 then .error .reservedArgBits
    else .ok (r.operands t)

/-- The transaction of a command, fields laid out as R74 lays them out, reserved bits zero (R72). -/
def encode : Instr → Transaction
  | .nop => ⟨0x00#6 ++ 0#26, 0⟩
  | .clear => ⟨0x01#6 ++ 0#26, 0⟩
  | .writeBits w v => ⟨0x02#6 ++ 0#19 ++ w, v⟩
  | .writeUnary n => ⟨0x03#6 ++ 0#26, n⟩
  | .align => ⟨0x04#6 ++ 0#26, 0⟩
  | .finish => ⟨0x05#6 ++ 0#26, 0⟩
  | .readOut addr => ⟨0x06#6 ++ 0#26, 0#32 ++ addr⟩
  | .readReg reg => ⟨0x07#6 ++ 0#18 ++ reg, 0⟩
  | .loadRes idx val => ⟨0x08#6 ++ 0#10 ++ idx, 0#32 ++ val⟩
  | .riceChoose k start count => ⟨0x09#6 ++ 0#21 ++ k, 0#32 ++ count ++ start⟩
  | .riceEncode k start count => ⟨0x0A#6 ++ 0#21 ++ k, 0#32 ++ count ++ start⟩
  | .ricePartition pmin pmax pred bs => ⟨0x0B#6 ++ 0#12 ++ pred ++ pmax ++ pmin, 0#48 ++ bs⟩
  | .riceEmit => ⟨0x0C#6 ++ 0#26, 0⟩
  | .readKtab idx => ⟨0x0D#6 ++ 0#26, 0#49 ++ idx⟩
  | .frameHeader strat bs rate ch bps num => ⟨0x0E#6 ++ rate ++ ch ++ strat ++ 0#3, 0#6 ++ bps ++ bs ++ num⟩
  | .seqSet sstrat next => ⟨0x0F#6 ++ 0#24 ++ sstrat, 0#28 ++ next⟩

/-- The transaction whose bits are `w` as spec/opcode_table.json numbers them: `CMD` is bits 31..0 and `ARG` bits
95..32; every bit at or above `nbits` is 0 (DESIGN CHOICE, log entry 12: the table gives only `CMD` bits). -/
def transactionOfTableWord (nbits w : Nat) : Transaction :=
  let bits := w % 2 ^ nbits
  ⟨BitVec.ofNat 32 bits, BitVec.ofNat 64 (bits >>> 32)⟩

/-- The command the decoder reads from a table word. -/
def decodeTableWord (nbits w : Nat) : Option Instr :=
  (decode (transactionOfTableWord nbits w)).toOption

end Sys2Proof
end

