-- ==== Sys2Proof/Config.lean ====
section
/-! DEFINITION. What one implementation of soundly-BRF fixes, and the values the spec leaves open. -/

namespace Sys2Proof

/-- The block's OPEN parameter a model can see (00_scope.md R5, 93_implementation_defined.md A13).
`LATENCY` and `HOST_MAP` are not observable through commands (A14, A15). -/
structure Config where
  /-- `OUT_CAP`: the capacity of the output buffer in complete bytes. -/
  outCap : BitVec 32
deriving DecidableEq, Repr

namespace Config

/-- `16 <= OUT_CAP < 2^32` (92_eei_decisions.md D3); the upper bound is the width of the field. -/
abbrev Legal (c : Config) : Prop := 16 ≤ c.outCap.toNat

/-- DESIGN CHOICE (log entry 4): the capacity 95_test_vectors.md uses. No statement rests on it. -/
def standard : Config := { outCap := 4096 }

/-- Free value (log entry 7): what a KTAB entry holds that no RICE_PARTITION has written since reset
(10_state.md R30: "Content after reset is unspecified"). Nothing constrains it. -/
opaque ktabAtReset : Nat → BitVec 5

end Config

end Sys2Proof
end

