-- ==== Sys2Proof/Machine/State.lean ====
section
/-! DEFINITION. The state of soundly-BRF (10_state.md), its reset value (R40), and the ways a step can stop. -/

namespace Sys2Proof.Machine

/-- Indexed storage of `w`-bit cells: the cells that have been written, as (index, value) pairs with strictly rising
indices. A cell that is not listed has not been written since reset. -/
abbrev Memory (w : Nat) := List (Nat × BitVec w)

/-- The canonical form of a memory: strictly rising indices. An unlisted cell reads as no value at all, so no
listed value can equal it. -/
abbrev Memory.wf {w : Nat} (m : Memory w) : Prop := m.Pairwise fun a b => a.1 < b.1

/-- The BitWriter's state `WSTATE` (10_state.md R23). -/
inductive WState where
  /-- OPEN (0): commands may append to `S`. -/
  | opened
  /-- FINISHED (1): no command appends until CLEAR or reset. -/
  | finished
deriving DecidableEq, Repr

/-- The fault codes a command can raise, 1..14 of 60_exceptions.md R220. -/
inductive FaultCode where
  /-- 1 OVERFLOW. -/
  | overflow
  /-- 2 STATE. -/
  | state
  /-- 3 ILLEGAL. -/
  | illegal
  /-- 4 RANGE. -/
  | range
  /-- 5 CAPACITY. -/
  | capacity
  /-- 6 EMPTY. -/
  | empty
  /-- 7 RICE_PARAM. -/
  | riceParam
  /-- 8 PARTITION. -/
  | partition
  /-- 9 UNALIGNED. -/
  | unaligned
  /-- 10 RATE. -/
  | rate
  /-- 11 CHANNELS. -/
  | channels
  /-- 12 BITDEPTH. -/
  | bitDepth
  /-- 13 SEQUENCE. -/
  | sequence
  /-- 14 CRC: "reserved for an implementation's self-check"; no command of this model raises it. -/
  | crc
deriving DecidableEq, Repr

/-- A command's response `(FAULT, RESP)` (30_encoding.md R78). -/
structure Response where
  fault : BitVec 4
  resp : BitVec 64
deriving DecidableEq, Repr

/-- What the host can send the block: a command transaction (00_scope.md R2), or the reset event
(70_reset_and_hazards.md R250). -/
inductive HostInput where
  | command (t : Transaction)
  | reset
deriving DecidableEq, Repr

/-- All state of one block instance (10_state.md), its parameter, and the host's side of the interface. -/
structure State where
  /-- The parameter `OUT_CAP`; no step changes it (R42; log entry 4). -/
  config : Config
  /-- `S`: every bit appended since the last CLEAR or reset, in append order (R21). -/
  out : Bits
  /-- `WSTATE` (R23). -/
  wstate : WState
  /-- `RES` (R24): the entries whose written flag is set (R25; log entry 5). -/
  res : Memory 32
  /-- `RC_K` (R26). -/
  rcK : BitVec 5
  /-- `RC_COST` (R26). -/
  rcCost : BitVec 64
  /-- `RP_ORDER` (R27). -/
  rpOrder : BitVec 4
  /-- `RP_METHOD` (R27). -/
  rpMethod : BitVec 1
  /-- `RP_COST` (R27). -/
  rpCost : BitVec 64
  /-- `RP_BLOCKSIZE` (R28). -/
  rpBlockSize : BitVec 16
  /-- `RP_PRED` (R28). -/
  rpPred : BitVec 6
  /-- `RP_VALID` (R29). -/
  rpValid : Bool
  /-- `KTAB` (R30): the entries some RICE_PARTITION has written. -/
  ktab : Memory 5
  /-- `SEQ_STRAT` (R31). -/
  seqStrat : BitVec 2
  /-- `SEQ_NEXT` (R32). -/
  seqNext : BitVec 37
  /-- `CRC8_LAST` (R33). -/
  crc8Last : BitVec 8
  /-- `HDR_LEN` (R33). -/
  hdrLen : BitVec 5
  /-- `FAULT` (R34). -/
  fault : BitVec 4
  /-- The model's own: host inputs not yet taken, first one next (log entry 2). -/
  inputs : List HostInput
  /-- The model's own: the responses given so far, newest first (R42, R260; log entry 1). -/
  responses : List Response
deriving DecidableEq, Repr

/-- The machine right after reset (R40, 70_reset_and_hazards.md R250, R251). RES and KTAB list nothing: their
contents are unspecified and every written flag is clear. `OUT_CAP` is DESIGN CHOICE 4096 (log entry 4). -/
def State.reset : State where
  config := Config.standard
  out := []
  wstate := .opened
  res := []
  rcK := 0
  rcCost := 0
  rpOrder := 0
  rpMethod := 0
  rpCost := 0
  rpBlockSize := 0
  rpPred := 0
  rpValid := false
  ktab := []
  seqStrat := 0
  seqNext := 0
  crc8Last := 0
  hdrLen := 0
  fault := 0
  inputs := []
  responses := []

/-- The ways the MODEL stops. The block's own faults are not among them: taking one gives a next state. -/
inductive Fault where
  /-- UNINIT_RES, model-only (10_state.md R25): RICE_CHOOSE, RICE_ENCODE, RICE_PARTITION or RICE_EMIT read a RES entry
  whose written flag is clear. Safe: the hardware goes on with an unspecified value. -/
  | uninitRes
deriving DecidableEq, Repr

/-- Refusals. No command of this model refuses; the one constructor is the host's interface. -/
inductive Refusal where
  /-- Raised by no arm of `exec` here: the instruction has no meaning yet. Safe. -/
  | notModelled (mnemonic : String)
deriving DecidableEq, Repr

/-- The outcome of a command or a step. -/
abbrev Result := Host.Outcome State Fault Refusal

end Sys2Proof.Machine
end

