-- ==== Sys2Proof/Machine/Operands.lean ====
section
/-! DEFINITION. Operand assembly and bit strings (00_scope.md R6 to R8, 30_encoding.md R75). -/

namespace Sys2Proof.Machine

/-- `bitsOf(v, w)`: the low `w` bits of `v`, most significant first (00_scope.md R8). -/
def bitsOf (v : Nat) : Nat → Bits
  | 0 => []
  | w + 1 => v.testBit w :: bitsOf v w

/-- `zeros(n)` (00_scope.md R8). -/
def zeros (n : Nat) : Bits := List.replicate n false

/-- The number a bit string spells, most significant bit first, on top of an accumulator. -/
def bitsToNatFrom (acc : Nat) : Bits → Nat
  | [] => acc
  | b :: bs => bitsToNatFrom (2 * acc + b.toNat) bs

/-- The number a bit string spells, most significant bit first (10_state.md R22). -/
def bitsToNat (bs : Bits) : Nat := bitsToNatFrom 0 bs

/-- `zext_64` (00_scope.md R7). -/
def zext64 {w : Nat} (v : BitVec w) : BitVec 64 := v.setWidth 64

/-- `sext_32` of a stored residual word, an integer (00_scope.md R7, 20_memory.md R55). -/
def sext32 (v : BitVec 32) : Int := v.toInt

/-- A byte string as the bits it appends, bytes in order and each most significant bit first (20_memory.md R51). -/
def bytesToBits (bytes : List Byte) : Bits := bytes.flatMap fun b => bitsOf b.toNat 8

/-- `(8 - PBITS) mod 8` zero bits after a string of `n` bits (40_bitwriter.md R102). -/
def padLength (n : Nat) : Nat := (8 - n % 8) % 8

end Sys2Proof.Machine
end

