-- ==== Sys2Proof/Machine/Flags.lean ====
section
/-! DEFINITION. The views computed from the state: the projections of `S` (10_state.md R22), `STATUS` (R35) and the
register map (R36). The block has no condition codes (R38). -/

namespace Sys2Proof.Machine

/-- `BITLEN`, exact (R22). -/
def State.bitLen (s : State) : Nat := s.out.length

/-- `OUT_LEN`, the number of complete bytes, exact (R22). -/
def State.outLen (s : State) : Nat := s.bitLen / 8

/-- `PBITS`, the number of pending bits (R22). -/
def State.pbits (s : State) : Nat := s.bitLen % 8

/-- `PACC`: the pending bits, right-aligned (R22). -/
def State.pacc (s : State) : Nat := bitsToNat (s.out.drop (8 * s.outLen))

/-- `OUT[a]`: the first-written bit of the byte is its bit 7 (R22, 20_memory.md R51). -/
def State.outByte (s : State) (a : Nat) : Byte := BitVec.ofNat 8 (bitsToNat ((s.out.drop (8 * a)).take 8))

/-- `WSTATE` as the bit `STATUS` shows (R35). -/
def WState.bit : WState → BitVec 1
  | .opened => 0
  | .finished => 1

/-- `STATUS` (R35): 0, SEQ_STRAT, RP_VALID, PBITS, WSTATE, FAULT from the top bit down. -/
def State.status (s : State) : BitVec 64 :=
  0#53 ++ s.seqStrat ++ BitVec.ofBool s.rpValid ++ BitVec.ofNat 3 s.pbits ++ s.wstate.bit ++ s.fault

/-- The register map (R36), each register at its width and zero-extended; `none` for a number that is no register. -/
def State.register (s : State) : Nat → Option (BitVec 64)
  | 0x00 => some s.status
  | 0x01 => some (zext64 (BitVec.ofNat 32 s.outLen))
  | 0x02 => some (zext64 (BitVec.ofNat 7 s.pacc))
  | 0x03 => some (zext64 (BitVec.ofNat 35 s.bitLen))
  | 0x04 => some (zext64 s.rcK)
  | 0x05 => some s.rcCost
  | 0x06 => some (zext64 s.rpOrder)
  | 0x07 => some (zext64 s.rpMethod)
  | 0x08 => some s.rpCost
  | 0x09 => some (zext64 s.rpBlockSize)
  | 0x0A => some (zext64 s.rpPred)
  | 0x0B => some (zext64 s.seqNext)
  | 0x0C => some (zext64 s.crc8Last)
  | 0x0D => some (zext64 s.hdrLen)
  | 0x0E => some (zext64 s.config.outCap)
  | _ => none

end Sys2Proof.Machine
end

