-- ==== Sys2Proof/Machine/Ops.lean ====
section
/-! DEFINITION. The operations every command is built from: memory cells, responses, taking a fault, the common
checks, `Append`, and the host's inputs. -/

namespace Sys2Proof.Machine

/-! ### Memory cells (20_memory.md R50, R54 to R56) -/

/-- The value of a cell, if it has been written. -/
def Memory.read {w : Nat} : Memory w → Nat → Option (BitVec w)
  | [], _ => none
  | (j, v) :: m, i => if i = j then some v else Memory.read m i

/-- Write one cell, keeping the indices strictly rising. -/
def Memory.write {w : Nat} : Memory w → Nat → BitVec w → Memory w
  | [], i, v => [(i, v)]
  | (j, u) :: m, i, v =>
    if i < j then (i, v) :: (j, u) :: m
    else if i = j then (i, v) :: m
    else (j, u) :: Memory.write m i v

/-- The `count` cells from `start` on, in order, if every one has been written. -/
def Memory.readRange {w : Nat} (m : Memory w) (start : Nat) : Nat → Option (List (BitVec w))
  | 0 => some []
  | count + 1 =>
    match m.read start, m.readRange (start + 1) count with
    | some v, some vs => some (v :: vs)
    | _, _ => none

/-- The cells `start, start + 1, ...` holding the listed values. -/
def Memory.cells {w : Nat} (start : Nat) : List (BitVec w) → Memory w
  | [] => []
  | v :: vs => (start, v) :: Memory.cells (start + 1) vs

/-- Write cells `0 .. vs.length - 1`; every cell above keeps what it held (10_state.md R30, 20_memory.md R56). -/
def Memory.writeLow {w : Nat} (m : Memory w) (vs : List (BitVec w)) : Memory w :=
  Memory.cells 0 vs ++ m.filter fun cell => vs.length ≤ cell.1

/-- `RES_DEPTH`: the number of residual entries (00_scope.md R5). -/
def resDepth : Nat := 65535

/-- `KTAB[j]`. An entry no RICE_PARTITION has written holds a free value (10_state.md R30; log entry 7). -/
def State.ktabEntry (s : State) (j : Nat) : BitVec 5 := (s.ktab.read j).getD (Config.ktabAtReset j)

/-! ### Responses and faults (30_encoding.md R78, 60_exceptions.md R220 to R226) -/

/-- The code of a fault in the FAULT register (60_exceptions.md R220). -/
def FaultCode.code : FaultCode → BitVec 4
  | .overflow => 1
  | .state => 2
  | .illegal => 3
  | .range => 4
  | .capacity => 5
  | .empty => 6
  | .riceParam => 7
  | .partition => 8
  | .unaligned => 9
  | .rate => 10
  | .channels => 11
  | .bitDepth => 12
  | .sequence => 13
  | .crc => 14

/-- Return the response `(FAULT, v)`, FAULT as the command leaves it. -/
def State.record (s : State) (v : BitVec 64) : State :=
  { s with responses := { fault := s.fault, resp := v } :: s.responses }

/-- The FAULT register after a fault with code `c`: only the first code is kept (R221, R224). -/
def State.latchFault (s : State) (c : FaultCode) : State :=
  { s with fault := if s.fault = 0 then c.code else s.fault }

/-- `respond(v)` (30_encoding.md R78). -/
def respond (v : BitVec 64) (s : State) : Result := .next (s.record v)

/-- `raise Fault(c)`: FAULT takes the code if it was 0, nothing else changes, the response is `(FAULT, 0)`
(60_exceptions.md R221, R226). This is the whole of taking an exception: there is no vector, handler, saved program
counter or mode change (R228). -/
def raiseFault (c : FaultCode) (s : State) : Result := .next ((s.latchFault c).record 0)

/-- The block after the reset event (70_reset_and_hazards.md R250): every piece of state at its reset value, FAULT
among it. It is the only way out of a fault; there is no return from a trap (60_exceptions.md R229). The parameter
and the host's own record stay (log entry 3). -/
def State.afterReset (s : State) : State :=
  { State.reset with config := s.config, inputs := s.inputs, responses := s.responses }

/-- Common check 2 (60_exceptions.md R223): while FAULT is nonzero the command is suppressed, changes nothing and
returns `(FAULT, 0)`. -/
def gate (s : State) (body : Unit → Result) : Result :=
  if s.fault = 0 then body () else respond 0 s

/-- One check of a command: the condition that must hold, and the fault if it does not. -/
abbrev Check := Bool × FaultCode

/-- The fault of the first check that fails (60_exceptions.md R225). -/
def firstFailure : List Check → Option FaultCode
  | [] => none
  | (holds, c) :: rest => if holds then firstFailure rest else some c

/-- A command's own checks, in order, before any of its effects (60_exceptions.md R221, R225). -/
def checked (checks : List Check) (s : State) (body : Unit → Result) : Result :=
  match firstFailure checks with
  | some c => raiseFault c s
  | none => body ()

/-! ### Append (20_memory.md R52) -/

/-- Appending `n` bits would complete more than `OUT_CAP` bytes (exact arithmetic, 00_scope.md R7). -/
abbrev State.exceedsCapacity (s : State) (n : Nat) : Prop := s.config.outCap.toNat < (s.bitLen + n) / 8

/-- `Append` of a string of `n` bits: the capacity check, made on the length before the string is built, and then the
bits. `done` is the rest of the command. -/
def append (n : Nat) (bits : Unit → Bits) (s : State) (done : State → Result) : Result :=
  if s.exceedsCapacity n then raiseFault .capacity s
  else done { s with out := s.out ++ bits () }

/-- `respond(BITLEN)`. -/
def respondBitLen (s : State) : Result := respond (zext64 (BitVec.ofNat 35 s.bitLen)) s

/-- `respond(OUT_LEN)`. -/
def respondOutLen (s : State) : Result := respond (zext64 (BitVec.ofNat 32 s.outLen)) s

/-! ### Residuals (20_memory.md R55, 10_state.md R25) -/

/-- `MemRead(RES, start + i, 4)` for `i` in `0 .. count - 1`; UNINIT_RES if one entry's written flag is clear. -/
def withResiduals (start count : Nat) (s : State) (body : List Int → Result) : Result :=
  match s.res.readRange start count with
  | some words => body (words.map sext32)
  | none => .fault .uninitRes

/-! ### The host's inputs (log entry 2) -/

/-- The next host input, and the state with it taken. -/
def State.nextInput (s : State) : Option (HostInput × State) :=
  match s.inputs with
  | [] => none
  | i :: rest => some (i, { s with inputs := rest })

/-- The state with the command presented as the very next host input. -/
def State.present (s : State) (t : Transaction) : State := { s with inputs := .command t :: s.inputs }

end Sys2Proof.Machine
end

