-- ==== Sys2Proof/Machine/BitWriter.lean ====
section
/-! DEFINITION. The BitWriter commands (40_bitwriter.md). -/

namespace Sys2Proof.Machine

/-- WRITE_BITS (R100). -/
def execWriteBits (w : BitVec 7) (v : BitVec 64) (s : State) : Result :=
  gate s fun _ =>
  checked [(s.wstate = .opened, .state),
    (1 ≤ w.toNat ∧ w.toNat ≤ 64, .overflow),
    (v.toNat < 2 ^ w.toNat, .overflow)] s fun _ =>
  append w.toNat (fun _ => bitsOf v.toNat w.toNat) s respondBitLen

/-- WRITE_UNARY (R101). -/
def execWriteUnary (n : BitVec 64) (s : State) : Result :=
  gate s fun _ =>
  checked [(s.wstate = .opened, .state)] s fun _ =>
  append (n.toNat + 1) (fun _ => zeros n.toNat ++ [true]) s respondBitLen

/-- ALIGN (R102). -/
def execAlign (s : State) : Result :=
  gate s fun _ =>
  checked [(s.wstate = .opened, .state)] s fun _ =>
  append (padLength s.bitLen) (fun _ => zeros (padLength s.bitLen)) s respondBitLen

/-- FINISH (R103). -/
def execFinish (s : State) : Result :=
  gate s fun _ =>
  checked [(s.wstate = .opened, .state)] s fun _ =>
  append (padLength s.bitLen) (fun _ => zeros (padLength s.bitLen)) s fun s =>
  respondOutLen { s with wstate := .finished }

/-- CLEAR (R104). -/
def execClear (s : State) : Result :=
  gate s fun _ => respond 0 { s with out := [], wstate := .opened }

end Sys2Proof.Machine
end

