-- ==== Sys2Proof/Machine/FrameHeader.lean ====
section
/-! DEFINITION. The frame header, its CRC-8, and the commands over them (42_frame_header.md). -/

namespace Sys2Proof.Machine

/-! ### Codes -/

/-- Block size code `bc` (R161). -/
def blockSizeCode (bs : Nat) : Nat :=
  match bs with
  | 192 => 1
  | 576 => 2
  | 1152 => 3
  | 2304 => 4
  | 4608 => 5
  | 256 => 8
  | 512 => 9
  | 1024 => 10
  | 2048 => 11
  | 4096 => 12
  | 8192 => 13
  | 16384 => 14
  | 32768 => 15
  | _ => if bs ≤ 256 then 6 else 7

/-- Sample rate code `sc`, the first row of R162 that applies. -/
def rateCode (rate : Nat) : Nat :=
  match rate with
  | 88200 => 1
  | 176400 => 2
  | 192000 => 3
  | 8000 => 4
  | 16000 => 5
  | 22050 => 6
  | 24000 => 7
  | 32000 => 8
  | 44100 => 9
  | 48000 => 10
  | 96000 => 11
  | _ =>
    if rate % 1000 = 0 ∧ rate / 1000 ≤ 255 then 12
    else if rate % 10 = 0 ∧ rate / 10 ≤ 65535 then 14
    else if rate ≤ 65535 then 13
    else 0

/-- Bit depth code `dc` (R166). -/
def depthCode (bps : Nat) : Nat :=
  match bps with
  | 8 => 1
  | 12 => 2
  | 16 => 4
  | 20 => 5
  | 24 => 6
  | 32 => 7
  | _ => 0

/-- The channel assignments the block accepts (R164). -/
abbrev acceptedChannels (ch : Nat) : Prop := ch = 0 ∨ ch = 1 ∨ ch = 8 ∨ ch = 9 ∨ ch = 10

/-! ### The header bytes -/

/-- The number of bytes of the coded number of `v`: 1, or the least `n` in 2..7 with `v < 2^(5n+1)` (R165). -/
def codedLength (v : Nat) : Nat :=
  if v < 2 ^ 7 then 1
  else if v < 2 ^ 11 then 2
  else if v < 2 ^ 16 then 3
  else if v < 2 ^ 21 then 4
  else if v < 2 ^ 26 then 5
  else if v < 2 ^ 31 then 6
  else 7

/-- `lead(n)` (R165). -/
def leadByte (n : Nat) : Nat := (0xFF <<< (8 - n)) % 256

/-- The last `n` continuation bytes of the coded number of `v` (R165). -/
def continuationBytes (v : Nat) : Nat → List Byte
  | 0 => []
  | n + 1 => BitVec.ofNat 8 (0x80 ||| (v >>> (6 * n)) % 64) :: continuationBytes v n

/-- `coded(v)` (R165). -/
def codedNumber (v : Nat) : List Byte :=
  let n := codedLength v
  if n = 1 then [BitVec.ofNat 8 v]
  else BitVec.ofNat 8 (leadByte n ||| v >>> (6 * (n - 1))) :: continuationBytes v (n - 1)

/-- A 16-bit field, big-endian (R167). -/
def bytes16 (v : Nat) : List Byte := [BitVec.ofNat 8 (v >>> 8), BitVec.ofNat 8 (v % 256)]

/-- The optional block size field (R161, R167). -/
def blockSizeField (bs : Nat) : List Byte :=
  match blockSizeCode bs with
  | 6 => [BitVec.ofNat 8 (bs - 1)]
  | 7 => bytes16 (bs - 1)
  | _ => []

/-- The optional sample rate field (R162, R167). -/
def rateField (rate : Nat) : List Byte :=
  match rateCode rate with
  | 12 => [BitVec.ofNat 8 (rate / 1000)]
  | 13 => bytes16 rate
  | 14 => bytes16 (rate / 10)
  | _ => []

/-- The header before its CRC-8 (R160, R168). -/
def headerBody (strat bs rate ch bps num : Nat) : List Byte :=
  [0xFF, BitVec.ofNat 8 (0xF8 ||| strat), BitVec.ofNat 8 (blockSizeCode bs <<< 4 ||| rateCode rate),
    BitVec.ofNat 8 (ch <<< 4 ||| depthCode bps <<< 1)] ++ codedNumber num ++ blockSizeField bs ++ rateField rate

/-! ### CRC-8 (R163) -/

/-- One of the eight shifts: generator `0x07`, most significant bit first. -/
def crc8Shift (c : Byte) : Byte := if c.msb then (c <<< 1) ^^^ 0x07 else c <<< 1

/-- Eight shifts, after the next byte has been added in. -/
def crc8Byte (c b : Byte) : Byte :=
  crc8Shift (crc8Shift (crc8Shift (crc8Shift (crc8Shift (crc8Shift (crc8Shift (crc8Shift (c ^^^ b))))))))

/-- `crc8(B)` (R163). -/
def crc8 (bytes : List Byte) : Byte := bytes.foldl crc8Byte 0

/-- The complete header (R168). -/
def frameHeaderBytes (strat bs rate ch bps num : Nat) : List Byte :=
  let body := headerBody strat bs rate ch bps num
  body ++ [crc8 body]

/-! ### Commands -/

/-- Check 7 of FRAME_HEADER: the number is in range, the strategy unchanged, and the number the expected one (R168). -/
abbrev sequenceOk (strat : BitVec 1) (num : BitVec 36) (s : State) : Prop :=
  (strat = 0 → num.toNat < 2 ^ 31) ∧ (s.seqStrat = 0 ∨ s.seqStrat.toNat = strat.toNat + 1)
    ∧ num.toNat = s.seqNext.toNat

/-- The state after the header bytes are appended (R168, R169). -/
def State.withHeader (s : State) (header : List Byte) (strat : BitVec 1) (bs : BitVec 16) (num : BitVec 36) : State :=
  { s with
    crc8Last := header.getLastD 0
    hdrLen := BitVec.ofNat 5 header.length
    seqStrat := BitVec.ofNat 2 (strat.toNat + 1)
    seqNext := BitVec.ofNat 37 (num.toNat + if strat = 0 then 1 else bs.toNat) }

/-- FRAME_HEADER (R168). -/
def execFrameHeader (strat : BitVec 1) (bs : BitVec 16) (rate : BitVec 18) (ch : BitVec 4) (bps : BitVec 6)
    (num : BitVec 36) (s : State) : Result :=
  gate s fun _ =>
  checked [(s.wstate = .opened, .state),
    (s.pbits = 0, .unaligned),
    (8000 ≤ rate.toNat ∧ rate.toNat ≤ 192000, .rate),
    (acceptedChannels ch.toNat, .channels),
    (1 ≤ bs.toNat, .empty),
    (4 ≤ bps.toNat ∧ bps.toNat ≤ 32, .bitDepth),
    (sequenceOk strat num s, .sequence)] s fun _ =>
  let header := frameHeaderBytes strat.toNat bs.toNat rate.toNat ch.toNat bps.toNat num.toNat
  append (8 * header.length) (fun _ => bytesToBits header) s fun s =>
  respondBitLen (s.withHeader header strat bs num)

/-- SEQ_SET (R170). -/
def execSeqSet (sstrat : BitVec 2) (next : BitVec 36) (s : State) : Result :=
  gate s fun _ =>
  checked [(sstrat.toNat ≤ 2, .illegal),
    (sstrat = 1 → next.toNat < 2 ^ 31, .sequence)] s fun _ =>
  respond 0 { s with seqStrat := sstrat, seqNext := next.setWidth 37 }

end Sys2Proof.Machine
end

