-- ==== Sys2Proof/Machine/HostAccess.lean ====
section
/-! DEFINITION. The host access commands (43_host_access.md). They run even while FAULT is nonzero (60_exceptions.md
R223). -/

namespace Sys2Proof.Machine

/-- NOP (R190). -/
def execNop (s : State) : Result := respond 0 s

/-- READ_REG (R191). -/
def execReadReg (reg : BitVec 8) (s : State) : Result :=
  match s.register reg.toNat with
  | some v => respond v s
  | none => raiseFault .illegal s

/-- READ_OUT (R192). -/
def execReadOut (addr : BitVec 32) (s : State) : Result :=
  checked [(addr.toNat < s.outLen, .range)] s fun _ =>
  respond (zext64 (s.outByte addr.toNat)) s

end Sys2Proof.Machine
end

