-- ==== Sys2Proof/Machine/Rice.lean ====
section
/-! DEFINITION. The RiceCoder: folding, code words, exact costs, partitions and the commands over them
(41_rice.md). -/

namespace Sys2Proof.Machine

/-! ### Folding, code words and cost -/

/-- Zig-zag folding (R131). -/
def fold (r : Int) : Nat := if 0 ≤ r then (2 * r).toNat else (-2 * r - 1).toNat

/-- The inverse of `fold` (R131). -/
def unfold (u : Nat) : Int := if u % 2 = 0 then (u / 2 : Int) else -((u + 1) / 2 : Int)

/-- The Rice code word of `u` with parameter `k` (R132). -/
def riceBits (u k : Nat) : Bits := zeros (u >>> k) ++ true :: bitsOf (u % 2 ^ k) k

/-- `C(U, k)`: the exact number of bits of `U` coded with parameter `k` (R133). -/
def riceCost (us : List Nat) (k : Nat) : Nat := (us.map fun u => (u >>> k) + 1 + k).sum

/-- The code words of `U` with parameter `k`, in order (R135). -/
def riceCode (us : List Nat) (k : Nat) : Bits := us.flatMap fun u => riceBits u k

/-! ### Exhaustive search -/

/-- The first candidate of least cost, each candidate given with its cost. -/
def firstLeast {α : Type} (best : α × Nat) : List (α × Nat) → α × Nat
  | [] => best
  | c :: cs => firstLeast (if c.2 < best.2 then c else best) cs

/-- The least `k` in `0..kmax` that minimises `C(U, k)`, and that cost (R134). -/
def bestParameter (kmax : Nat) (us : List Nat) : Nat × Nat :=
  firstLeast (0, riceCost us 0) ((List.range' 1 kmax).map fun k => (k, riceCost us k))

/-! ### Partitions -/

/-- `lo_j` (R136). -/
def partitionLo (bs pred p j : Nat) : Nat := if j = 0 then 0 else j * (bs >>> p) - pred

/-- `hi_j` (R136). -/
def partitionHi (bs pred p j : Nat) : Nat := (j + 1) * (bs >>> p) - pred

/-- The part of the residual sequence that partition `j` covers (R136). -/
def partitionSlice {α : Type} (bs pred p j : Nat) (us : List α) : List α :=
  (us.drop (partitionLo bs pred p j)).take (partitionHi bs pred p j - partitionLo bs pred p j)

/-- Order `p` is legal for `(bs, pred)` (R137). -/
abbrev legalOrder (bs pred p : Nat) : Prop := p ≤ 15 ∧ bs % 2 ^ p = 0 ∧ pred < bs >>> p

/-- The legal orders in `pmin..pmax`, rising. -/
def legalOrders (bs pred pmin pmax : Nat) : List Nat :=
  (List.range' pmin (pmax + 1 - pmin)).filter fun p => legalOrder bs pred p

/-- `pbits(m)`: the width of the parameter field (R138). -/
def methodBits (m : Nat) : Nat := if m = 0 then 4 else 5

/-- `kmax(m)` (R138). -/
def methodKmax (m : Nat) : Nat := if m = 0 then 14 else 30

/-- A coding method, a partition order, and one Rice parameter for each partition (R139). -/
structure PartitionChoice where
  method : Nat
  order : Nat
  params : List Nat
deriving DecidableEq, Repr

/-- The best choice for one `(m, p)`, with `cost[m, p]` (R139). -/
def candidate (bs pred : Nat) (us : List Nat) (m p : Nat) : PartitionChoice × Nat :=
  let best := (List.range (2 ^ p)).map fun j => bestParameter (methodKmax m) (partitionSlice bs pred p j us)
  (⟨m, p, best.map Prod.fst⟩, 6 + (best.map fun b => methodBits m + b.2).sum)

/-- The first `(m, p)` of least cost, over both methods and the orders `p :: ps`, methods outermost (R139, R140). -/
def choosePartition (bs pred : Nat) (us : List Nat) (p : Nat) (ps : List Nat) : PartitionChoice × Nat :=
  firstLeast (candidate bs pred us 0 p)
    (ps.map (candidate bs pred us 0) ++ (p :: ps).map (candidate bs pred us 1))

/-! ### The residual section (R142) -/

/-- One partition: its parameter field and its code words. -/
def partitionBits (m k : Nat) (us : List Nat) : Bits := bitsOf k (methodBits m) ++ riceCode us k

/-- The residual section for method `m`, order `p` and parameters `kt` (R142). -/
def sectionBits (m p : Nat) (kt : Nat → Nat) (bs pred : Nat) (us : List Nat) : Bits :=
  bitsOf m 2 ++ bitsOf p 4 ++
    (List.range (2 ^ p)).flatMap fun j => partitionBits m (kt j) (partitionSlice bs pred p j us)

/-- The exact length of the section, from the costs (R139, R144). -/
def sectionCost (m p : Nat) (kt : Nat → Nat) (bs pred : Nat) (us : List Nat) : Nat :=
  6 + ((List.range (2 ^ p)).map fun j => methodBits m + riceCost (partitionSlice bs pred p j us) (kt j)).sum

/-! ### Commands -/

/-- LOAD_RES (R130). -/
def execLoadRes (idx : BitVec 16) (val : BitVec 32) (s : State) : Result :=
  gate s fun _ =>
  checked [(idx.toNat < resDepth, .range)] s fun _ =>
  respond 0 { s with res := s.res.write idx.toNat val, rpValid := false }

/-- RICE_CHOOSE (R134). -/
def execRiceChoose (k : BitVec 5) (start count : BitVec 16) (s : State) : Result :=
  gate s fun _ =>
  checked [(k.toNat ≤ 30, .riceParam),
    (1 ≤ count.toNat, .empty),
    (start.toNat + count.toNat ≤ resDepth, .range)] s fun _ =>
  withResiduals start.toNat count.toNat s fun rs =>
  let best := bestParameter k.toNat (rs.map fold)
  let rcK := BitVec.ofNat 5 best.1
  let rcCost := BitVec.ofNat 64 best.2
  respond ((rcCost <<< 8) ||| zext64 rcK) { s with rcK := rcK, rcCost := rcCost }

/-- RICE_ENCODE (R135). -/
def execRiceEncode (k : BitVec 5) (start count : BitVec 16) (s : State) : Result :=
  gate s fun _ =>
  checked [(s.wstate = .opened, .state),
    (k.toNat ≤ 30, .riceParam),
    (1 ≤ count.toNat, .empty),
    (start.toNat + count.toNat ≤ resDepth, .range)] s fun _ =>
  withResiduals start.toNat count.toNat s fun rs =>
  append (riceCost (rs.map fold) k.toNat) (fun _ => riceCode (rs.map fold) k.toNat) s respondBitLen

/-- The state RICE_PARTITION leaves for a choice (R139). -/
def State.withPartition (s : State) (choice : PartitionChoice) (cost : Nat) (bs : BitVec 16) (pred : BitVec 6) : State :=
  { s with
    rpMethod := BitVec.ofNat 1 choice.method
    rpOrder := BitVec.ofNat 4 choice.order
    rpCost := BitVec.ofNat 64 cost
    ktab := s.ktab.writeLow (choice.params.map (BitVec.ofNat 5))
    rpBlockSize := bs
    rpPred := pred
    rpValid := true }

/-- The response of RICE_PARTITION (R139). -/
def respondPartition (s : State) : Result :=
  respond ((s.rpCost <<< 8) ||| (zext64 s.rpMethod <<< 4) ||| zext64 s.rpOrder) s

/-- RICE_PARTITION (R139). Its fifth check, that some order of the range is legal, is the last match. -/
def execRicePartition (pmin pmax : BitVec 4) (pred : BitVec 6) (bs : BitVec 16) (s : State) : Result :=
  gate s fun _ =>
  checked [(1 ≤ bs.toNat, .empty),
    (pred.toNat ≤ 32, .partition),
    (pred.toNat < bs.toNat, .empty),
    (pmin.toNat ≤ pmax.toNat, .partition)] s fun _ =>
  match legalOrders bs.toNat pred.toNat pmin.toNat pmax.toNat with
  | [] => raiseFault .partition s
  | p :: ps =>
    withResiduals 0 (bs.toNat - pred.toNat) s fun rs =>
    let best := choosePartition bs.toNat pred.toNat (rs.map fold) p ps
    respondPartition (s.withPartition best.1 best.2 bs pred)

/-- The section RICE_EMIT appends, over the folded residuals `us` (R142, R143). -/
def State.sectionOf (s : State) (us : List Nat) : Bits :=
  sectionBits s.rpMethod.toNat s.rpOrder.toNat (fun j => (s.ktabEntry j).toNat) s.rpBlockSize.toNat s.rpPred.toNat us

/-- Its exact length. -/
def State.sectionLength (s : State) (us : List Nat) : Nat :=
  sectionCost s.rpMethod.toNat s.rpOrder.toNat (fun j => (s.ktabEntry j).toNat) s.rpBlockSize.toNat s.rpPred.toNat us

/-- RICE_EMIT (R143). -/
def execRiceEmit (s : State) : Result :=
  gate s fun _ =>
  checked [(s.wstate = .opened, .state),
    (s.rpValid, .state)] s fun _ =>
  withResiduals 0 (s.rpBlockSize.toNat - s.rpPred.toNat) s fun rs =>
  append (s.sectionLength (rs.map fold)) (fun _ => s.sectionOf (rs.map fold)) s respondBitLen

/-- READ_KTAB (R146); a read, so it runs while FAULT is nonzero. -/
def execReadKtab (idx : BitVec 15) (s : State) : Result :=
  checked [(s.rpValid, .state),
    (idx.toNat < 2 ^ s.rpOrder.toNat, .range)] s fun _ =>
  respond (zext64 (s.ktabEntry idx.toNat)) s

end Sys2Proof.Machine
end

