-- ==== Sys2Proof/Machine/Dispatch.lean ====
section
/-! DEFINITION. One arm for each command. -/

namespace Sys2Proof.Machine

def exec (i : Instr) (s : State) : Host.Outcome State Fault Refusal :=
  match i with
  | .nop => Sys2Proof.Machine.execNop s
  | .clear => Sys2Proof.Machine.execClear s
  | .writeBits w v => Sys2Proof.Machine.execWriteBits w v s
  | .writeUnary n => Sys2Proof.Machine.execWriteUnary n s
  | .align => Sys2Proof.Machine.execAlign s
  | .finish => Sys2Proof.Machine.execFinish s
  | .readOut addr => Sys2Proof.Machine.execReadOut addr s
  | .readReg reg => Sys2Proof.Machine.execReadReg reg s
  | .loadRes idx val => Sys2Proof.Machine.execLoadRes idx val s
  | .riceChoose k start count => Sys2Proof.Machine.execRiceChoose k start count s
  | .riceEncode k start count => Sys2Proof.Machine.execRiceEncode k start count s
  | .ricePartition pmin pmax pred bs => Sys2Proof.Machine.execRicePartition pmin pmax pred bs s
  | .riceEmit => Sys2Proof.Machine.execRiceEmit s
  | .readKtab idx => Sys2Proof.Machine.execReadKtab idx s
  | .frameHeader strat bs rate ch bps num => Sys2Proof.Machine.execFrameHeader strat bs rate ch bps num s
  | .seqSet sstrat next => Sys2Proof.Machine.execSeqSet sstrat next s

end Sys2Proof.Machine
end

