-- ==== Sys2Proof/Machine/Step.lean ====
section
/-! DEFINITION. One step: the block takes the host's next input (00_scope.md R2, 20_memory.md R60). -/

namespace Sys2Proof.Machine

/-- One step. With no input waiting the block is idle and keeps all state (60_exceptions.md R234). The reset event
stands between two commands (70_reset_and_hazards.md R250). A command is decoded first: an illegal transaction raises
ILLEGAL (common check 1, 60_exceptions.md R222), any other runs. -/
def step (s : State) : Host.Outcome State Fault Refusal :=
  match s.nextInput with
  | none => .next s
  | some (.reset, s) => .next s.afterReset
  | some (.command t, s) =>
    match decode t with
    | .ok i => exec i s
    | .error _ => raiseFault .illegal s

/-- `s` with the transaction of the table word presented as the very next host input (log entry 2). -/
def State.withFetchWord (s : State) (nbits w : Nat) : State := s.present (transactionOfTableWord nbits w)

end Sys2Proof.Machine
end

