-- ==== Sys2Proof/Machine/Assembler.lean ====
section
/-! DEFINITION. The assembler of 30_encoding.md R79 and its pseudo-commands (R80), from lines with plain numbers to
commands (log entry 16). -/

namespace Sys2Proof.Machine

/-- The command of a line whose operands fit. -/
def asmInstr : AsmLine → Instr
  | .nop => .nop
  | .clear => .clear
  | .writeBits w v => .writeBits (BitVec.ofNat 7 w) (BitVec.ofNat 64 v)
  | .writeUnary n => .writeUnary (BitVec.ofNat 64 n)
  | .align => .align
  | .finish => .finish
  | .readOut addr => .readOut (BitVec.ofNat 32 addr)
  | .readReg reg => .readReg (BitVec.ofNat 8 reg)
  | .loadRes idx val => .loadRes (BitVec.ofNat 16 idx) (BitVec.ofInt 32 val)
  | .riceChoose k start count => .riceChoose (BitVec.ofNat 5 k) (BitVec.ofNat 16 start) (BitVec.ofNat 16 count)
  | .riceEncode k start count => .riceEncode (BitVec.ofNat 5 k) (BitVec.ofNat 16 start) (BitVec.ofNat 16 count)
  | .ricePartition pmin pmax pred bs =>
    .ricePartition (BitVec.ofNat 4 pmin) (BitVec.ofNat 4 pmax) (BitVec.ofNat 6 pred) (BitVec.ofNat 16 bs)
  | .riceEmit => .riceEmit
  | .readKtab idx => .readKtab (BitVec.ofNat 15 idx)
  | .frameHeader strat bs rate ch bps num =>
    .frameHeader (BitVec.ofNat 1 strat) (BitVec.ofNat 16 bs) (BitVec.ofNat 18 rate) (BitVec.ofNat 4 ch)
      (BitVec.ofNat 6 bps) (BitVec.ofNat 36 num)
  | .seqSet sstrat next => .seqSet (BitVec.ofNat 2 sstrat) (BitVec.ofNat 36 next)

/-- The assembler "rejects an operand that does not fit its field" (R79). -/
def assemble (l : AsmLine) : Option Transaction :=
  if l.wellFormed then some (encode (asmInstr l)) else none

/-- The line that assembles to a command: its operands as numbers, `VAL` as a signed value (R79). -/
def asmLine : Instr → AsmLine
  | .nop => .nop
  | .clear => .clear
  | .writeBits w v => .writeBits w.toNat v.toNat
  | .writeUnary n => .writeUnary n.toNat
  | .align => .align
  | .finish => .finish
  | .readOut addr => .readOut addr.toNat
  | .readReg reg => .readReg reg.toNat
  | .loadRes idx val => .loadRes idx.toNat val.toInt
  | .riceChoose k start count => .riceChoose k.toNat start.toNat count.toNat
  | .riceEncode k start count => .riceEncode k.toNat start.toNat count.toNat
  | .ricePartition pmin pmax pred bs => .ricePartition pmin.toNat pmax.toNat pred.toNat bs.toNat
  | .riceEmit => .riceEmit
  | .readKtab idx => .readKtab idx.toNat
  | .frameHeader strat bs rate ch bps num =>
    .frameHeader strat.toNat bs.toNat rate.toNat ch.toNat bps.toNat num.toNat
  | .seqSet sstrat next => .seqSet sstrat.toNat next.toNat

/-- The expansion of a pseudo-command (R80); WRITE_ZEROS takes only `1 <= n <= 64`. -/
def expandPseudo : PseudoLine → Option (List AsmLine)
  | .putByte v => some [.writeBits 8 v]
  | .putU16 v => some [.writeBits 16 v]
  | .putSigned w v => some [.writeBits w (v % 2 ^ w).toNat]
  | .readStatus => some [.readReg 0x00]
  | .riceSection pmin pmax pred bs => some [.ricePartition pmin pmax pred bs, .riceEmit]
  | .writeZeros n => if 1 ≤ n ∧ n ≤ 64 then some [.writeBits n 0] else none

end Sys2Proof.Machine
end

