-- ==== Sys2Proof/Machine/RiceReader.lean ====
section
/-! DEFINITION. The reader of a residual section (41_rice.md R145). It is no command of the block: decoding is out of
scope (00_scope.md R4) and enters the spec as the property that this reader recovers the residuals. -/

namespace Sys2Proof.Machine

/-- Count zero bits up to a one bit. -/
def readUnary : Bits → Option (Nat × Bits)
  | [] => none
  | true :: bits => some (0, bits)
  | false :: bits =>
    match readUnary bits with
    | some (q, rest) => some (q + 1, rest)
    | none => none

/-- Read an unsigned field of `n` bits. -/
def readField (n : Nat) (bits : Bits) : Option (Nat × Bits) :=
  if n ≤ bits.length then some (bitsToNat (bits.take n), bits.drop n) else none

/-- Read one residual coded with parameter `k`: the quotient, the low bits, and `unfold(q * 2^k + low)`. -/
def readResidual (k : Nat) (bits : Bits) : Option (Int × Bits) :=
  match readUnary bits with
  | none => none
  | some (q, bits) =>
    match readField k bits with
    | none => none
    | some (low, bits) => some (unfold (q * 2 ^ k + low), bits)

/-- Read `n` residuals. -/
def readResiduals (k : Nat) : Nat → Bits → Option (List Int × Bits)
  | 0, bits => some ([], bits)
  | n + 1, bits =>
    match readResidual k bits with
    | none => none
    | some (r, bits) =>
      match readResiduals k n bits with
      | none => none
      | some (rs, bits) => some (r :: rs, bits)

/-- Read partitions `j, j + 1, ...`, `n` of them, each its parameter field and then its residuals. -/
def readPartitions (m p bs pred : Nat) : Nat → Nat → Bits → Option (List Int × Bits)
  | _, 0, bits => some ([], bits)
  | j, n + 1, bits =>
    match readField (methodBits m) bits with
    | none => none
    | some (k, bits) =>
      match readResiduals k (partitionHi bs pred p j - partitionLo bs pred p j) bits with
      | none => none
      | some (rs, bits) =>
        match readPartitions m p bs pred (j + 1) n bits with
        | none => none
        | some (rest, bits) => some (rs ++ rest, bits)

/-- Read a section for a block of size `bs` and predictor order `pred`: the 2-bit method, the 4-bit order, and the
`2^p` partitions. -/
def readSection (bs pred : Nat) (bits : Bits) : Option (List Int × Bits) :=
  match readField 2 bits with
  | none => none
  | some (m, bits) =>
    match readField 4 bits with
    | none => none
    | some (p, bits) => readPartitions m p bs pred 0 (2 ^ p) bits

end Sys2Proof.Machine
end

