-- ==== Sys2Proof/Safety.lean ====
section
/-! DEFINITION. The terms claims are stated in: the invariants of the block (10_state.md R41 and the rules behind it),
and the states a command may leave. -/

namespace Sys2Proof.Machine

/-- The state after a command that completes in `s` with the response `(FAULT, v)` (30_encoding.md R78). -/
def State.answered (s : State) (v : BitVec 64) : State :=
  { s with responses := { fault := s.fault, resp := v } :: s.responses }

/-- The state after a command that faults with `code` in a state with FAULT 0: FAULT takes the code, the response is
`(code, 0)`, nothing else changes (60_exceptions.md R221, R226). -/
def State.faulted (s : State) (code : BitVec 4) : State :=
  { s with fault := code, responses := { fault := code, resp := 0 } :: s.responses }

/-- The four commands that execute while FAULT is nonzero (60_exceptions.md R223). -/
def isRead : Instr → Bool
  | .nop | .readReg _ | .readOut _ | .readKtab _ => true
  | .clear | .writeBits _ _ | .writeUnary _ | .align | .finish | .loadRes _ _ | .riceChoose _ _ _
  | .riceEncode _ _ _ | .ricePartition _ _ _ _ | .riceEmit | .frameHeader _ _ _ _ _ _ | .seqSet _ _ => false

/-- The commands that append to `S` (60_exceptions.md R220, code 5). -/
def appends : Instr → Bool
  | .writeBits _ _ | .writeUnary _ | .align | .finish | .riceEncode _ _ _ | .riceEmit
  | .frameHeader _ _ _ _ _ _ => true
  | .nop | .readReg _ | .readOut _ | .readKtab _ | .clear | .loadRes _ _ | .riceChoose _ _ _
  | .ricePartition _ _ _ _ | .seqSet _ _ => false

/-- Entries `start .. start + count - 1` of RES have been written, and entry `start + i` holds the word `rs i`. -/
abbrev State.holdsResiduals (s : State) (start count : Nat) (rs : Nat → BitVec 32) : Prop :=
  ∀ i < count, s.res.read (start + i) = some (rs i)

/-- The residuals `rs 0 .. rs (count - 1)`, read as 32-bit two's complement and folded (41_rice.md R134). -/
def foldedResiduals (count : Nat) (rs : Nat → BitVec 32) : List Nat :=
  (List.range count).map fun i => fold (rs i).toInt

/-- The RES entries a command reads when its checks pass: the first, and how many (41_rice.md R134, R135, R139, R143). -/
def residualRange : Instr → State → Option (Nat × Nat)
  | .riceChoose _ start count, _ => some (start.toNat, count.toNat)
  | .riceEncode _ start count, _ => some (start.toNat, count.toNat)
  | .ricePartition _ _ pred bs, _ => some (0, bs.toNat - pred.toNat)
  | .riceEmit, s => some (0, s.rpBlockSize.toNat - s.rpPred.toNat)
  | .nop, _ | .clear, _ | .writeBits _ _, _ | .writeUnary _, _ | .align, _ | .finish, _ | .readOut _, _
  | .readReg _, _ | .loadRes _ _, _ | .readKtab _, _ | .frameHeader _ _ _ _ _ _, _ | .seqSet _ _, _ => none

/-- What `RP_VALID = 1` promises (10_state.md R29, R30, R41; 41_rice.md R144): the order is legal for the block, every
defined KTAB entry is within its method's range, the block's residuals have been written, and RP_COST is the exact
length of the section they make. -/
structure State.PartitionOk (s : State) : Prop where
  legal : legalOrder s.rpBlockSize.toNat s.rpPred.toNat s.rpOrder.toNat
  params : ∀ j < 2 ^ s.rpOrder.toNat, (s.ktabEntry j).toNat ≤ methodKmax s.rpMethod.toNat
  section_cost : ∃ words, s.res.readRange 0 (s.rpBlockSize.toNat - s.rpPred.toNat) = some words ∧
    s.rpCost.toNat = s.sectionLength (words.map fun w => fold (sext32 w))

/-- The invariant of the block (10_state.md R41, with the ranges its registers' rules give). -/
structure State.Inv (s : State) : Prop where
  /-- `OUT_CAP >= 16` (92_eei_decisions.md D3). -/
  config : s.config.Legal
  /-- `OUT_LEN <= OUT_CAP` (R21, R41). -/
  capacity : s.outLen ≤ s.config.outCap.toNat
  /-- A finished buffer has whole bytes (R23, 40_bitwriter.md R103). -/
  finished : s.wstate = .finished → s.pbits = 0
  /-- RES in canonical form, within its depth (R24). -/
  res_wf : s.res.wf
  res_depth : ∀ cell ∈ s.res, cell.1 < resDepth
  /-- KTAB in canonical form, within its depth (R30). -/
  ktab_wf : s.ktab.wf
  ktab_depth : ∀ cell ∈ s.ktab, cell.1 < 32768
  /-- RC_K and RC_COST in range (R26, 41_rice.md R134, R141). -/
  rcK : s.rcK.toNat ≤ 30
  rcCost : s.rcCost.toNat < 2 ^ 48
  /-- RP_COST in range (41_rice.md R141). -/
  rpCost : s.rpCost.toNat < 2 ^ 49
  /-- `SEQ_STRAT != 3` (R31, R41). -/
  seqStrat : s.seqStrat ≠ 3
  /-- With fixed blocking the next number is at most `2^31` (R32, 42_frame_header.md R168, R170). -/
  seqFixed : s.seqStrat = 1 → s.seqNext.toNat ≤ 2 ^ 31
  seqNext : s.seqNext.toNat < 2 ^ 36 + 2 ^ 16
  /-- HDR_LEN is 0 before the first header and a header's length after it (R33). -/
  hdrLen : s.hdrLen = 0 ∨ 6 ≤ s.hdrLen.toNat ∧ s.hdrLen.toNat ≤ 16
  /-- FAULT is a code some command raises; 14 and 15 are never raised (R34, 60_exceptions.md R220). -/
  fault : s.fault.toNat ≤ 13
  /-- R29, R41, 41_rice.md R144. -/
  partition : s.rpValid = true → s.PartitionOk

end Sys2Proof.Machine
end

