-- ==== Sys2Proof/Certificates/Slice0/Obligations.lean ====
section
/-! DEFINITION. The statements for the provers. Each docstring names the rule of spec/ it formalises. -/

section Slice0

open Sys2Proof Sys2Proof.Machine

/-! ### Encoding -/

/-- 30_encoding.md R73, R74: decoding an encoded command gives it back, with every operand at every value. -/
def Obligations.DecodeEncodeAgree : Prop := ∀ i : Instr, decode (encode i) = .ok i

/-- 30_encoding.md R72: "every legal pattern is exactly one command": a command has one transaction only. -/
def Obligations.EncodeDecodeAgree : Prop := ∀ (t : Transaction) (i : Instr), decode t = .ok i → encode i = t

/-- 30_encoding.md R73: a pair is the command of a row iff its masked `CMD` is the row's match and its masked `ARG` is
zero, and at most one row matches. -/
def Obligations.DecodeIsRowMatch : Prop :=
  ∀ t : Transaction,
    (∀ i, decode t = .ok i ↔
      ∃ r ∈ opcodeTable, t.cmd &&& r.mask = r.pattern ∧ t.arg &&& r.argZero = 0 ∧ i = r.operands t) ∧
    ∀ (m n : Nat) (r r' : OpcodeRow), opcodeTable[m]? = some r → opcodeTable[n]? = some r' →
      t.cmd &&& r.mask = r.pattern → t.cmd &&& r'.mask = r'.pattern → m = n

/-- Words written out from the layouts of 30_encoding.md R73 and R74, one of each format. -/
def Obligations.DecodedWords : Prop :=
  decode ⟨0b00000000000000000000000000000000, 0⟩ = .ok .nop ∧
  decode ⟨0b00001000000000000000000001000000, 0x8000000000000001⟩ = .ok (.writeBits 64 0x8000000000000001) ∧
  decode ⟨0b00001100000000000000000000000000, 12⟩ = .ok (.writeUnary 12) ∧
  decode ⟨0b00011000000000000000000000000000, 0x80000005⟩ = .ok (.readOut 0x80000005) ∧
  decode ⟨0b00011100000000000000000000001110, 0⟩ = .ok (.readReg 14) ∧
  decode ⟨0b00100000000000001111111111111110, 0x80000000⟩ = .ok (.loadRes 65534 0x80000000) ∧
  decode ⟨0b00101000000000000000000000000011, 0x00080004⟩ = .ok (.riceEncode 3 4 8) ∧
  decode ⟨0b00101100000000000000001000010000, 8⟩ = .ok (.ricePartition 0 1 2 8) ∧
  decode ⟨0b00110100000000000000000000000000, 0x7FFF⟩ = .ok (.readKtab 0x7FFF) ∧
  decode ⟨0b00111000101110111000000010101000, 0x1803E80000033E8⟩ =
    .ok (.frameHeader 1 1000 48000 10 24 13288) ∧
  decode ⟨0b00111100000000000000000000000010, 0xFFFFFFFFF⟩ = .ok (.seqSet 2 68719476735)

/-- 30_encoding.md R79: the assembler takes exactly the lines whose operands fit their fields, and writes their
operands unchanged; every command is the assembly of one line. -/
def Obligations.AssemblerKeepsOperands : Prop :=
  (∀ l : AsmLine, (assemble l).isSome = l.wellFormed) ∧
  (∀ l : AsmLine, l.wellFormed = true → asmLine (asmInstr l) = l ∧ (assemble l).map decode = some (.ok (asmInstr l))) ∧
  ∀ i : Instr, assemble (asmLine i) = some (encode i)

/-! ### The step -/

/-- A waiting transaction that decodes to a command is taken and that command runs, with nothing added around it. -/
def Obligations.StepRunsDecodedCommand : Prop :=
  ∀ (s : State) (tx : Transaction) (rest : List HostInput) (i : Instr),
    s.inputs = .command tx :: rest → decode tx = .ok i → step s = exec i { s with inputs := rest }

/-- 60_exceptions.md R222: a reserved opcode, or a nonzero reserved bit of `CMD` or `ARG`, raises ILLEGAL (3), before
any other check; with FAULT nonzero the first code stays. -/
def Obligations.IllegalTransactionRaisesIllegal : Prop :=
  ∀ (s : State) (tx : Transaction) (rest : List HostInput), s.inputs = .command tx :: rest →
    (0x10 ≤ (opcodeOf tx.cmd).toNat ∨
      ∃ r ∈ opcodeTable, opcodeOf r.pattern = opcodeOf tx.cmd ∧
        (tx.cmd &&& ~~~ 0xFC000000#32 &&& r.mask ≠ 0 ∨ tx.arg &&& r.argZero ≠ 0)) →
    (s.fault = 0 → step s = .next (({ s with inputs := rest } : State).faulted 3)) ∧
    (s.fault ≠ 0 → step s = .next (({ s with inputs := rest } : State).answered 0))

/-- 60_exceptions.md R234: with no command the block is idle and keeps all state. -/
def Obligations.IdleKeepsState : Prop := ∀ s : State, s.inputs = [] → step s = .next s

/-- 70_reset_and_hazards.md R250, 10_state.md R40: the reset event gives every piece of state its reset value; no RES
entry is written. The parameter and the host's own record stay (log entry 3, the model's choice). -/
def Obligations.ResetEventGivesResetValues : Prop :=
  ∀ (s : State) (rest : List HostInput), s.inputs = .reset :: rest →
    step s = .next
      { config := s.config, out := [], wstate := .opened, res := [], rcK := 0, rcCost := 0, rpOrder := 0, rpMethod := 0,
        rpCost := 0, rpBlockSize := 0, rpPred := 0, rpValid := false, ktab := [], seqStrat := 0, seqNext := 0,
        crc8Last := 0, hdrLen := 0, fault := 0, inputs := rest, responses := s.responses }

/-! ### Invariants -/

/-- 10_state.md R41: the invariant holds right after reset. -/
def Obligations.ResetStateMeetsInvariant : Prop := State.reset.Inv

/-- 10_state.md R41: every step keeps the invariant, from every state that meets it. -/
def Obligations.StepKeepsInvariant : Prop := ∀ s t : State, s.Inv → step s = .next t → t.Inv

/-- 10_state.md R22: in a state that meets the invariant the projections of `S` are exact in their registers' widths. -/
def Obligations.ProjectionsFitTheirRegisters : Prop :=
  ∀ s : State, s.Inv → s.bitLen < 2 ^ 35 ∧ s.outLen < 2 ^ 32 ∧ s.bitLen = 8 * s.outLen + s.pbits ∧
    s.pbits < 8 ∧ s.pacc < 2 ^ s.pbits

/-! ### Faults, reads and frames over all commands -/

/-- 60_exceptions.md R223: while FAULT is nonzero a command that is not one of the four reads is suppressed, and the
four reads execute; one whose own check fails keeps the first code (R221). -/
def Obligations.SuppressedWhileFaulted : Prop :=
  ∀ s : State, s.fault ≠ 0 →
    (∀ i, isRead i = false → exec i s = .next (s.answered 0)) ∧
    exec .nop s = .next (s.answered 0) ∧
    (∀ reg v, s.register reg.toNat = some v → exec (.readReg reg) s = .next (s.answered v)) ∧
    (∀ reg, s.register reg.toNat = none → exec (.readReg reg) s = .next (s.answered 0)) ∧
    (∀ addr, addr.toNat < s.outLen → exec (.readOut addr) s = .next (s.answered (zext64 (s.outByte addr.toNat)))) ∧
    (∀ addr, s.outLen ≤ addr.toNat → exec (.readOut addr) s = .next (s.answered 0)) ∧
    (∀ idx, s.rpValid = true → idx.toNat < 2 ^ s.rpOrder.toNat →
      exec (.readKtab idx) s = .next (s.answered (zext64 (s.ktabEntry idx.toNat)))) ∧
    ∀ idx, s.rpValid = false ∨ 2 ^ s.rpOrder.toNat ≤ idx.toNat → exec (.readKtab idx) s = .next (s.answered 0)

/-- 60_exceptions.md R221, R226: a step that changes FAULT found it 0, leaves it a code of R220 other than CRC, answers
`(FAULT, 0)` and changes nothing else. -/
def Obligations.FaultsAreAllOrNothing : Prop :=
  ∀ (s t : State) (tx : Transaction) (rest : List HostInput), s.inputs = .command tx :: rest → step s = .next t →
    t.fault ≠ s.fault →
    s.fault = 0 ∧ 1 ≤ t.fault.toNat ∧ t.fault.toNat ≤ 13 ∧ t = ({ s with inputs := rest } : State).faulted t.fault

/-- 60_exceptions.md R224: once nonzero FAULT keeps its code until reset, and reset clears it. -/
def Obligations.FaultIsStickyUntilReset : Prop :=
  ∀ s t : State, s.fault ≠ 0 → step s = .next t →
    ((∃ rest, s.inputs = .reset :: rest) → t.fault = 0) ∧ ((¬ ∃ rest, s.inputs = .reset :: rest) → t.fault = s.fault)

/-- 20_memory.md R66: reads change no state except FAULT when they fault, and repeating a read gives the same
response. -/
def Obligations.ReadsHaveNoSideEffects : Prop :=
  ∀ (i : Instr) (s t : State), isRead i = true → exec i s = .next t →
    t = { s with fault := t.fault, responses := t.responses } ∧ (s.fault ≠ 0 → t.fault = s.fault) ∧
    ∃ u, exec i t = .next u ∧ u.fault = t.fault ∧ u.responses.head? = t.responses.head?

/-- 20_memory.md R54: no command but CLEAR changes a bit of `S` or a complete byte of OUT; `S` only grows. -/
def Obligations.CompleteBytesNeverChange : Prop :=
  ∀ (i : Instr) (s t : State), exec i s = .next t →
    (i ≠ .clear → s.out <+: t.out ∧ ∀ a < s.outLen, a < t.outLen ∧ t.outByte a = s.outByte a) ∧
    (i = .clear → t.out = s.out ∨ t.out = [])

/-- 10_state.md R36, R38: each register changes only by the commands whose rules name it; every command gives exactly
one response, which carries FAULT; none touches the parameter or the host's waiting inputs. -/
def Obligations.OnlyNamedCommandsWriteEachRegister : Prop :=
  ∀ (i : Instr) (s t : State), exec i s = .next t →
    t.config = s.config ∧ t.inputs = s.inputs ∧
    (∃ v, t.responses = { fault := t.fault, resp := v } :: s.responses) ∧
    (appends i = false → i ≠ .clear → t.out = s.out) ∧
    (i ≠ .finish → i ≠ .clear → t.wstate = s.wstate) ∧
    ((∀ idx val, i ≠ .loadRes idx val) → t.res = s.res) ∧
    ((∀ k start count, i ≠ .riceChoose k start count) → t.rcK = s.rcK ∧ t.rcCost = s.rcCost) ∧
    ((∀ pmin pmax pred bs, i ≠ .ricePartition pmin pmax pred bs) →
      t.rpOrder = s.rpOrder ∧ t.rpMethod = s.rpMethod ∧ t.rpCost = s.rpCost ∧ t.rpBlockSize = s.rpBlockSize ∧
      t.rpPred = s.rpPred ∧ t.ktab = s.ktab ∧ ((∀ idx val, i ≠ .loadRes idx val) → t.rpValid = s.rpValid)) ∧
    ((∀ strat bs rate ch bps num, i ≠ .frameHeader strat bs rate ch bps num) →
      t.crc8Last = s.crc8Last ∧ t.hdrLen = s.hdrLen ∧
      ((∀ sstrat next, i ≠ .seqSet sstrat next) → t.seqStrat = s.seqStrat ∧ t.seqNext = s.seqNext))

/-- 20_memory.md R60: a step observes nothing of the commands after it, nor of the responses already given. -/
def Obligations.StepIgnoresLaterInputs : Prop :=
  ∀ (s : State) (input : HostInput) (rest rest' : List HostInput) (past past' : List Response),
    match step { s with inputs := input :: rest, responses := past },
      step { s with inputs := input :: rest', responses := past' } with
    | .next t, .next t' =>
      t.inputs = rest ∧ t'.inputs = rest' ∧ (∃ new, t.responses = new ++ past ∧ t'.responses = new ++ past') ∧
      ({ t with inputs := [], responses := [] } : State) = { t' with inputs := [], responses := [] }
    | .fault f, .fault f' => f = f'
    | _, _ => False

/-- 10_state.md R25: the written flags are clear at reset and LOAD_RES sets its entry's; the model stops, with
UNINIT_RES, exactly when a Rice command's checks pass and it reads an entry whose flag is clear, and stops in no
other way. That the stop comes before the capacity check is the model's choice (log entry 6). -/
def Obligations.UninitResIsTheOnlyStop : Prop :=
  (∀ j, State.reset.res.read j = none) ∧
  (∀ idx val s t, exec (.loadRes idx val) s = .next t → t.fault = 0 →
    t.res.read idx.toNat = some val ∧ ∀ j, j ≠ idx.toNat → t.res.read j = s.res.read j) ∧
  (∀ i s r, exec i s ≠ .refused r) ∧
  (∀ i s f, exec i s = .fault f →
    f = .uninitRes ∧ s.fault = 0 ∧ ∃ start count, residualRange i s = some (start, count) ∧
      ∃ j < count, s.res.read (start + j) = none) ∧
  ∀ (s : State) (start count j : Nat), s.fault = 0 → j < count → s.res.read (start + j) = none →
    (∀ k st ct, residualRange (.riceChoose k st ct) s = some (start, count) → k.toNat ≤ 30 → start + count ≤ 65535 →
      exec (.riceChoose k st ct) s = .fault .uninitRes) ∧
    (∀ k st ct, residualRange (.riceEncode k st ct) s = some (start, count) → s.wstate = .opened → k.toNat ≤ 30 →
      start + count ≤ 65535 → exec (.riceEncode k st ct) s = .fault .uninitRes) ∧
    (∀ pmin pmax pred bs, residualRange (.ricePartition pmin pmax pred bs) s = some (start, count) → pred.toNat ≤ 32 →
      pred.toNat < bs.toNat →
      (∃ p, pmin.toNat ≤ p ∧ p ≤ pmax.toNat ∧ p ≤ 15 ∧ bs.toNat % 2 ^ p = 0 ∧ pred.toNat < bs.toNat >>> p) →
      exec (.ricePartition pmin pmax pred bs) s = .fault .uninitRes) ∧
    (residualRange .riceEmit s = some (start, count) → s.wstate = .opened → s.rpValid = true →
      exec .riceEmit s = .fault .uninitRes)

/-! ### Host access commands -/

/-- 43_host_access.md R190. -/
def Obligations.NopRule : Prop :=
  ∀ s : State, encode .nop = ⟨0x00000000, 0⟩ ∧ exec .nop s = .next (s.answered 0) ∧
    ∀ arg : BitVec 64, arg ≠ 0 → decode ⟨0x00000000, arg⟩ = .error .reservedArgBits

/-- 43_host_access.md R191, 10_state.md R36: READ_REG answers the register's value, zero-extended; a number above 0x0E
raises ILLEGAL (3). `S` is as long as `BITLEN`'s 35 bits allow, as the invariant says. -/
def Obligations.ReadRegRule : Prop :=
  ∀ (reg : BitVec 8) (s : State), s.out.length < 2 ^ 35 →
    encode (.readReg reg) = ⟨0x1C000000 ||| reg.setWidth 32, 0⟩ ∧
    (reg.toNat ≤ 0x0E → ∃ v, exec (.readReg reg) s = .next (s.answered v)) ∧
    exec (.readReg 0x00) s = .next (s.answered s.status) ∧
    exec (.readReg 0x01) s = .next (s.answered (BitVec.ofNat 64 (s.out.length / 8))) ∧
    exec (.readReg 0x02) s = .next (s.answered (BitVec.ofNat 64 s.pacc)) ∧
    exec (.readReg 0x03) s = .next (s.answered (BitVec.ofNat 64 s.out.length)) ∧
    exec (.readReg 0x04) s = .next (s.answered (s.rcK.setWidth 64)) ∧
    exec (.readReg 0x05) s = .next (s.answered s.rcCost) ∧
    exec (.readReg 0x06) s = .next (s.answered (s.rpOrder.setWidth 64)) ∧
    exec (.readReg 0x07) s = .next (s.answered (s.rpMethod.setWidth 64)) ∧
    exec (.readReg 0x08) s = .next (s.answered s.rpCost) ∧
    exec (.readReg 0x09) s = .next (s.answered (s.rpBlockSize.setWidth 64)) ∧
    exec (.readReg 0x0A) s = .next (s.answered (s.rpPred.setWidth 64)) ∧
    exec (.readReg 0x0B) s = .next (s.answered (s.seqNext.setWidth 64)) ∧
    exec (.readReg 0x0C) s = .next (s.answered (s.crc8Last.setWidth 64)) ∧
    exec (.readReg 0x0D) s = .next (s.answered (s.hdrLen.setWidth 64)) ∧
    exec (.readReg 0x0E) s = .next (s.answered (s.config.outCap.setWidth 64)) ∧
    (0x0E < reg.toNat → s.fault = 0 → exec (.readReg reg) s = .next (s.faulted 3)) ∧
    (0x0E < reg.toNat → s.fault ≠ 0 → exec (.readReg reg) s = .next (s.answered 0))

/-- 10_state.md R35: the fields of STATUS, as READ_REG 0x00 answers it. -/
def Obligations.StatusFields : Prop :=
  ∀ s : State, ∃ v : BitVec 64, exec (.readReg 0x00) s = .next (s.answered v) ∧
    v.extractLsb' 0 4 = s.fault ∧ (v.getLsbD 4 = true ↔ s.wstate = .finished) ∧
    (v.extractLsb' 5 3).toNat = s.out.length % 8 ∧ v.getLsbD 8 = s.rpValid ∧
    v.extractLsb' 9 2 = s.seqStrat ∧ v.extractLsb' 11 53 = 0

/-- 43_host_access.md R192: READ_OUT answers a complete byte; at or beyond OUT_LEN, the byte holding pending bits
included, it raises RANGE (4). -/
def Obligations.ReadOutRule : Prop :=
  ∀ (addr : BitVec 32) (s : State),
    encode (.readOut addr) = ⟨0x18000000, addr.setWidth 64⟩ ∧
    (addr.toNat < s.out.length / 8 → exec (.readOut addr) s = .next (s.answered ((s.outByte addr.toNat).setWidth 64))) ∧
    (s.out.length / 8 ≤ addr.toNat → s.fault = 0 → exec (.readOut addr) s = .next (s.faulted 4)) ∧
    (s.out.length / 8 ≤ addr.toNat → s.fault ≠ 0 → exec (.readOut addr) s = .next (s.answered 0))

/-- 10_state.md R22, 20_memory.md R51: bit `7 - j` of `OUT[a]` is the bit of `S` at `8a + j`, and bit `PBITS - 1 - j` of
`PACC` is the bit of `S` at `8*OUT_LEN + j`; `PACC` has no bit above these. -/
def Obligations.OutByteBits : Prop :=
  (∀ (s : State) (a j : Nat), a < s.out.length / 8 → j < 8 →
    s.out[8 * a + j]? = some ((s.outByte a).getLsbD (7 - j))) ∧
  (∀ (s : State) (j : Nat), j < s.out.length % 8 →
    s.out[8 * (s.out.length / 8) + j]? = some (s.pacc.testBit (s.out.length % 8 - 1 - j))) ∧
  ∀ (s : State) (i : Nat), s.out.length % 8 ≤ i → s.pacc.testBit i = false

/-! ### BitWriter commands -/

/-- 00_scope.md R8: `bitsOf(v, w)` is `v[w-1], ..., v[0]`. -/
def Obligations.BitsOfIsMostSignificantFirst : Prop :=
  ∀ v w : Nat, (bitsOf v w).length = w ∧ ∀ i < w, (bitsOf v w)[i]? = some (v.testBit (w - 1 - i))

/-- 40_bitwriter.md R100: WRITE_BITS, its encoding, checks, effect and response. -/
def Obligations.WriteBitsRule : Prop :=
  ∀ (w : BitVec 7) (v : BitVec 64) (s : State), s.fault = 0 →
    encode (.writeBits w v) = ⟨0x08000000 ||| w.setWidth 32, v⟩ ∧
    (s.wstate = .finished → exec (.writeBits w v) s = .next (s.faulted 2)) ∧
    (s.wstate = .opened → w.toNat = 0 ∨ 64 < w.toNat → exec (.writeBits w v) s = .next (s.faulted 1)) ∧
    (s.wstate = .opened → 1 ≤ w.toNat → w.toNat ≤ 64 → 2 ^ w.toNat ≤ v.toNat →
      exec (.writeBits w v) s = .next (s.faulted 1)) ∧
    (s.wstate = .opened → 1 ≤ w.toNat → w.toNat ≤ 64 → v.toNat < 2 ^ w.toNat →
      s.config.outCap.toNat < (s.out.length + w.toNat) / 8 → exec (.writeBits w v) s = .next (s.faulted 5)) ∧
    (s.wstate = .opened → 1 ≤ w.toNat → w.toNat ≤ 64 → v.toNat < 2 ^ w.toNat →
      (s.out.length + w.toNat) / 8 ≤ s.config.outCap.toNat →
      exec (.writeBits w v) s = .next
        (({ s with out := s.out ++ bitsOf v.toNat w.toNat } : State).answered
          (BitVec.ofNat 64 (s.out.length + w.toNat))))

/-- 40_bitwriter.md R101: WRITE_UNARY appends `N` zeros and a one; the length check is exact for every `N`. -/
def Obligations.WriteUnaryRule : Prop :=
  ∀ (n : BitVec 64) (s : State), s.fault = 0 →
    encode (.writeUnary n) = ⟨0x0C000000, n⟩ ∧
    (s.wstate = .finished → exec (.writeUnary n) s = .next (s.faulted 2)) ∧
    (s.wstate = .opened → s.config.outCap.toNat < (s.out.length + (n.toNat + 1)) / 8 →
      exec (.writeUnary n) s = .next (s.faulted 5)) ∧
    (s.wstate = .opened → (s.out.length + (n.toNat + 1)) / 8 ≤ s.config.outCap.toNat →
      exec (.writeUnary n) s = .next
        (({ s with out := s.out ++ (List.replicate n.toNat false ++ [true]) } : State).answered
          (BitVec.ofNat 64 (s.out.length + n.toNat + 1))))

/-- 40_bitwriter.md R102: ALIGN pads with zero bits to the next byte boundary. -/
def Obligations.AlignRule : Prop :=
  ∀ s : State, s.fault = 0 →
    let n := (8 - s.out.length % 8) % 8
    encode .align = ⟨0x10000000, 0⟩ ∧
    (s.wstate = .finished → exec .align s = .next (s.faulted 2)) ∧
    (s.wstate = .opened → s.config.outCap.toNat < (s.out.length + n) / 8 → exec .align s = .next (s.faulted 5)) ∧
    (s.wstate = .opened → (s.out.length + n) / 8 ≤ s.config.outCap.toNat →
      exec .align s = .next
        (({ s with out := s.out ++ List.replicate n false } : State).answered (BitVec.ofNat 64 (s.out.length + n))) ∧
      (s.out.length + n) % 8 = 0)

/-- 40_bitwriter.md R103: FINISH pads as ALIGN does, closes the buffer and answers OUT_LEN; in a closed buffer every
appending command raises STATE (2), until CLEAR. -/
def Obligations.FinishRule : Prop :=
  ∀ s : State, s.fault = 0 →
    let n := (8 - s.out.length % 8) % 8
    encode .finish = ⟨0x14000000, 0⟩ ∧
    (s.wstate = .finished → ∀ i, appends i = true → exec i s = .next (s.faulted 2)) ∧
    (s.wstate = .opened → s.config.outCap.toNat < (s.out.length + n) / 8 → exec .finish s = .next (s.faulted 5)) ∧
    (s.wstate = .opened → (s.out.length + n) / 8 ≤ s.config.outCap.toNat →
      exec .finish s = .next
        (({ s with out := s.out ++ List.replicate n false, wstate := .finished } : State).answered
          (BitVec.ofNat 64 ((s.out.length + n) / 8))) ∧
      (s.out.length + n) % 8 = 0)

/-- 40_bitwriter.md R104: CLEAR empties the buffer and opens it; nothing else changes. -/
def Obligations.ClearRule : Prop :=
  ∀ s : State, s.fault = 0 →
    encode .clear = ⟨0x04000000, 0⟩ ∧
    exec .clear s = .next (({ s with out := [], wstate := .opened } : State).answered 0)

/-- 40_bitwriter.md R105: a write that completes is two writes, split anywhere. -/
def Obligations.WriteBitsSplits : Prop :=
  ∀ (a b w : BitVec 7) (v : BitVec 64) (s t : State), s.fault = 0 → 1 ≤ a.toNat → 1 ≤ b.toNat →
    w.toNat = a.toNat + b.toNat → exec (.writeBits w v) s = .next t → t.fault = 0 →
    ∃ u x, exec (.writeBits a (v >>> b.toNat)) s = .next u ∧ u.fault = 0 ∧
      exec (.writeBits b (BitVec.ofNat 64 (v.toNat % 2 ^ b.toNat))) u = .next x ∧ x.fault = 0 ∧ x.out = t.out

/-- 40_bitwriter.md R106: a short WRITE_UNARY is a WRITE_BITS of the value 1. -/
def Obligations.UnaryIsWriteBits : Prop :=
  ∀ (n : BitVec 64) (w : BitVec 7) (s : State), n.toNat ≤ 63 → w.toNat = n.toNat + 1 →
    exec (.writeUnary n) s = exec (.writeBits w 1) s

/-- 20_memory.md R53: a field of `n` bytes written on a byte boundary lands big-endian. -/
def Obligations.WholeBytesLandBigEndian : Prop :=
  ∀ (w : BitVec 7) (v : BitVec 64) (s t : State) (n j : Nat), s.fault = 0 → s.pbits = 0 → w.toNat = 8 * n →
    exec (.writeBits w v) s = .next t → t.fault = 0 → j < n →
    s.outLen + j < t.outLen ∧ t.outByte (s.outLen + j) = BitVec.ofNat 8 (v.toNat >>> (8 * (n - 1 - j)))

/-! ### RiceCoder commands -/

/-- 41_rice.md R130: LOAD_RES writes its entry, keeps every other, and clears RP_VALID; entry 65535 raises RANGE (4). -/
def Obligations.LoadResRule : Prop :=
  ∀ (idx : BitVec 16) (val : BitVec 32) (s : State), s.fault = 0 →
    encode (.loadRes idx val) = ⟨0x20000000 ||| idx.setWidth 32, val.setWidth 64⟩ ∧
    (idx.toNat = 65535 → exec (.loadRes idx val) s = .next (s.faulted 4)) ∧
    (idx.toNat < 65535 → ∃ t, exec (.loadRes idx val) s = .next t ∧
      t = ({ s with res := t.res, rpValid := false } : State).answered 0 ∧
      t.res.read idx.toNat = some val ∧ ∀ j, j ≠ idx.toNat → t.res.read j = s.res.read j)

/-- 41_rice.md R131: `fold` is the zig-zag map, a bijection from the 32-bit signed range onto `[0, 2^32 - 1]`, with
inverse `unfold`, and the shift form of 93_implementation_defined.md B18. -/
def Obligations.FoldIsZigZagBijection : Prop :=
  (∀ r : Int, (0 ≤ r → (fold r : Int) = 2 * r) ∧ (r < 0 → (fold r : Int) = -2 * r - 1)) ∧
  (∀ r : Int, -2 ^ 31 ≤ r → r ≤ 2 ^ 31 - 1 → fold r ≤ 2 ^ 32 - 1 ∧ unfold (fold r) = r) ∧
  (∀ u : Nat, u ≤ 2 ^ 32 - 1 →
    -2 ^ 31 ≤ unfold u ∧ unfold u ≤ 2 ^ 31 - 1 ∧ fold (unfold u) = u ∧
    (u % 2 = 0 → unfold u = u / 2) ∧ (u % 2 = 1 → unfold u = -((u + 1) / 2))) ∧
  ∀ v : BitVec 32, BitVec.ofNat 32 (fold v.toInt) = (v <<< 1) ^^^ v.sshiftRight 31

/-- 41_rice.md R134: RICE_CHOOSE's faults in order, and the least `k` of least exact cost. -/
def Obligations.RiceChooseRule : Prop :=
  ∀ (k : BitVec 5) (start count : BitVec 16) (s : State) (rs : Nat → BitVec 32), s.fault = 0 →
    encode (.riceChoose k start count) =
      ⟨0x24000000 ||| k.setWidth 32, (count.setWidth 64 <<< 16) ||| start.setWidth 64⟩ ∧
    (30 < k.toNat → exec (.riceChoose k start count) s = .next (s.faulted 7)) ∧
    (k.toNat ≤ 30 → count.toNat = 0 → exec (.riceChoose k start count) s = .next (s.faulted 6)) ∧
    (k.toNat ≤ 30 → 1 ≤ count.toNat → 65535 < start.toNat + count.toNat →
      exec (.riceChoose k start count) s = .next (s.faulted 4)) ∧
    (k.toNat ≤ 30 → 1 ≤ count.toNat → start.toNat + count.toNat ≤ 65535 →
      s.holdsResiduals start.toNat count.toNat rs →
      let us := foldedResiduals count.toNat rs
      let cost := fun k : Nat => (us.map fun u => (u >>> k) + 1 + k).sum
      ∃ t, exec (.riceChoose k start count) s = .next t ∧
        t = ({ s with rcK := t.rcK, rcCost := t.rcCost } : State).answered
          ((t.rcCost <<< 8) ||| t.rcK.setWidth 64) ∧
        t.rcK.toNat ≤ k.toNat ∧ t.rcCost.toNat = cost t.rcK.toNat ∧
        (∀ j ≤ k.toNat, cost t.rcK.toNat ≤ cost j) ∧
        ∀ j < t.rcK.toNat, cost t.rcK.toNat < cost j)

/-- 41_rice.md R132, R133, R135: RICE_ENCODE's faults in order, and the code words it appends; the capacity check uses
the exact cost. -/
def Obligations.RiceEncodeRule : Prop :=
  ∀ (k : BitVec 5) (start count : BitVec 16) (s : State) (rs : Nat → BitVec 32), s.fault = 0 →
    let us := foldedResiduals count.toNat rs
    let cost := (us.map fun u => (u >>> k.toNat) + 1 + k.toNat).sum
    encode (.riceEncode k start count) =
      ⟨0x28000000 ||| k.setWidth 32, (count.setWidth 64 <<< 16) ||| start.setWidth 64⟩ ∧
    (s.wstate = .finished → exec (.riceEncode k start count) s = .next (s.faulted 2)) ∧
    (s.wstate = .opened → 30 < k.toNat → exec (.riceEncode k start count) s = .next (s.faulted 7)) ∧
    (s.wstate = .opened → k.toNat ≤ 30 → count.toNat = 0 →
      exec (.riceEncode k start count) s = .next (s.faulted 6)) ∧
    (s.wstate = .opened → k.toNat ≤ 30 → 1 ≤ count.toNat → 65535 < start.toNat + count.toNat →
      exec (.riceEncode k start count) s = .next (s.faulted 4)) ∧
    (s.wstate = .opened → k.toNat ≤ 30 → 1 ≤ count.toNat → start.toNat + count.toNat ≤ 65535 →
      s.holdsResiduals start.toNat count.toNat rs →
      (s.config.outCap.toNat < (s.out.length + cost) / 8 →
        exec (.riceEncode k start count) s = .next (s.faulted 5)) ∧
      ((s.out.length + cost) / 8 ≤ s.config.outCap.toNat →
        exec (.riceEncode k start count) s = .next
          (({ s with out := s.out ++ us.flatMap fun u =>
              List.replicate (u >>> k.toNat) false ++ [true] ++ bitsOf (u % 2 ^ k.toNat) k.toNat } : State).answered
            (BitVec.ofNat 64 (s.out.length + cost)))))

/-- 41_rice.md R136: for a legal order the partitions are the residual sequence cut in order, the first `ps - pred`
residuals long and every other `ps`. -/
def Obligations.PartitionsTileTheBlock : Prop :=
  ∀ (bs pred p : Nat) (us : List Nat), legalOrder bs pred p → us.length = bs - pred →
    ((List.range (2 ^ p)).flatMap fun j => partitionSlice bs pred p j us) = us ∧
    (partitionSlice bs pred p 0 us).length = bs >>> p - pred ∧
    ∀ j, 1 ≤ j → j < 2 ^ p → (partitionSlice bs pred p j us).length = bs >>> p

/-- 41_rice.md R139: RICE_PARTITION's encoding and its faults, in order. -/
def Obligations.RicePartitionFaults : Prop :=
  ∀ (pmin pmax : BitVec 4) (pred : BitVec 6) (bs : BitVec 16) (s : State), s.fault = 0 →
    encode (.ricePartition pmin pmax pred bs) =
      ⟨0x2C000000 ||| (pred.setWidth 32 <<< 8) ||| (pmax.setWidth 32 <<< 4) ||| pmin.setWidth 32, bs.setWidth 64⟩ ∧
    (bs.toNat = 0 → exec (.ricePartition pmin pmax pred bs) s = .next (s.faulted 6)) ∧
    (1 ≤ bs.toNat → 32 < pred.toNat → exec (.ricePartition pmin pmax pred bs) s = .next (s.faulted 8)) ∧
    (1 ≤ bs.toNat → pred.toNat ≤ 32 → bs.toNat ≤ pred.toNat →
      exec (.ricePartition pmin pmax pred bs) s = .next (s.faulted 6)) ∧
    (pred.toNat ≤ 32 → pred.toNat < bs.toNat → pmax.toNat < pmin.toNat →
      exec (.ricePartition pmin pmax pred bs) s = .next (s.faulted 8)) ∧
    (pred.toNat ≤ 32 → pred.toNat < bs.toNat → pmin.toNat ≤ pmax.toNat →
      (∀ p, pmin.toNat ≤ p → p ≤ pmax.toNat →
        ¬ (p ≤ 15 ∧ bs.toNat % 2 ^ p = 0 ∧ pred.toNat < bs.toNat >>> p)) →
      exec (.ricePartition pmin pmax pred bs) s = .next (s.faulted 8))

/-- 41_rice.md R139, R140, with R133, R137 and R138 written out: RICE_PARTITION completes on loaded residuals with the
choice of least exact section length. No method, no legal order of the range and no parameters within the method's range
make a shorter section; a smaller method, or an equal method and a smaller order, makes a strictly longer one; and each
parameter is the least of its partition's cheapest. KTAB entries at or above `2^RP_ORDER` "keep whatever they held"
(10_state.md R30, 20_memory.md R56). -/
def Obligations.RicePartitionIsExactOptimum : Prop :=
  ∀ (pmin pmax : BitVec 4) (pred : BitVec 6) (bs : BitVec 16) (s : State) (rs : Nat → BitVec 32),
    let legal := fun p : Nat => p ≤ 15 ∧ bs.toNat % 2 ^ p = 0 ∧ pred.toNat < bs.toNat >>> p
    let kmax := fun m : Nat => if m = 0 then 14 else 30
    let us := foldedResiduals (bs.toNat - pred.toNat) rs
    let slice := fun p j : Nat => partitionSlice bs.toNat pred.toNat p j us
    let codeCost := fun (vs : List Nat) (k : Nat) => (vs.map fun u => (u >>> k) + 1 + k).sum
    let cost := fun (m p : Nat) (kt : Nat → Nat) =>
      6 + ((List.range (2 ^ p)).map fun j => (if m = 0 then 4 else 5) + codeCost (slice p j) (kt j)).sum
    s.fault = 0 → pred.toNat ≤ 32 → pred.toNat < bs.toNat → (∃ p, pmin.toNat ≤ p ∧ p ≤ pmax.toNat ∧ legal p) →
    s.holdsResiduals 0 (bs.toNat - pred.toNat) rs →
    ∃ t, exec (.ricePartition pmin pmax pred bs) s = .next t ∧
      t = ({ s with
        rpMethod := t.rpMethod, rpOrder := t.rpOrder, rpCost := t.rpCost, ktab := t.ktab, rpBlockSize := bs,
        rpPred := pred, rpValid := true } : State).answered
          ((t.rpCost <<< 8) ||| (t.rpMethod.setWidth 64 <<< 4) ||| t.rpOrder.setWidth 64) ∧
      pmin.toNat ≤ t.rpOrder.toNat ∧ t.rpOrder.toNat ≤ pmax.toNat ∧ legal t.rpOrder.toNat ∧
      (∀ j < 2 ^ t.rpOrder.toNat,
        let best := codeCost (slice t.rpOrder.toNat j) (t.ktabEntry j).toNat
        (t.ktabEntry j).toNat ≤ kmax t.rpMethod.toNat ∧
        (∀ k ≤ kmax t.rpMethod.toNat, best ≤ codeCost (slice t.rpOrder.toNat j) k) ∧
        ∀ k < (t.ktabEntry j).toNat, best < codeCost (slice t.rpOrder.toNat j) k) ∧
      (∀ j, 2 ^ t.rpOrder.toNat ≤ j → t.ktab.read j = s.ktab.read j) ∧
      t.rpCost.toNat = cost t.rpMethod.toNat t.rpOrder.toNat (fun j => (t.ktabEntry j).toNat) ∧
      ∀ (m p : Nat) (kt : Nat → Nat), m ≤ 1 → pmin.toNat ≤ p → p ≤ pmax.toNat → legal p →
        (∀ j < 2 ^ p, kt j ≤ kmax m) →
        t.rpCost.toNat ≤ cost m p kt ∧
        (m < t.rpMethod.toNat ∨ m = t.rpMethod.toNat ∧ p < t.rpOrder.toNat → t.rpCost.toNat < cost m p kt)

/-- 30_encoding.md R78, 41_rice.md R141: the costs stay within their bounds and the packed responses lose no bit. -/
def Obligations.PackedResponsesLoseNoBits : Prop :=
  (∀ k start count (s t : State), exec (.riceChoose k start count) s = .next t → t.fault = 0 →
    ∃ v, t.responses = { fault := 0, resp := v } :: s.responses ∧ t.rcCost.toNat < 2 ^ 48 ∧
      v.toNat = t.rcCost.toNat * 2 ^ 8 + t.rcK.toNat) ∧
  ∀ pmin pmax pred bs (s t : State), exec (.ricePartition pmin pmax pred bs) s = .next t → t.fault = 0 →
    ∃ v, t.responses = { fault := 0, resp := v } :: s.responses ∧ t.rpCost.toNat < 2 ^ 49 ∧
      v.toNat = t.rpCost.toNat * 2 ^ 8 + t.rpMethod.toNat * 2 ^ 4 + t.rpOrder.toNat

/-- 41_rice.md R142, R143: RICE_EMIT's faults, and the residual section it appends from the last choice. -/
def Obligations.RiceEmitRule : Prop :=
  ∀ (s : State) (rs : Nat → BitVec 32), s.fault = 0 →
    let n := s.rpBlockSize.toNat - s.rpPred.toNat
    let us := foldedResiduals n rs
    let m := s.rpMethod.toNat
    let bits := bitsOf m 2 ++ bitsOf s.rpOrder.toNat 4 ++ (List.range (2 ^ s.rpOrder.toNat)).flatMap fun j =>
      let k := (s.ktabEntry j).toNat
      bitsOf k (if m = 0 then 4 else 5) ++
        (partitionSlice s.rpBlockSize.toNat s.rpPred.toNat s.rpOrder.toNat j us).flatMap fun u =>
          List.replicate (u >>> k) false ++ [true] ++ bitsOf (u % 2 ^ k) k
    encode .riceEmit = ⟨0x30000000, 0⟩ ∧
    (s.wstate = .finished → exec .riceEmit s = .next (s.faulted 2)) ∧
    (s.wstate = .opened → s.rpValid = false → exec .riceEmit s = .next (s.faulted 2)) ∧
    (s.wstate = .opened → s.rpValid = true → s.holdsResiduals 0 n rs →
      (s.config.outCap.toNat < (s.out.length + bits.length) / 8 → exec .riceEmit s = .next (s.faulted 5)) ∧
      ((s.out.length + bits.length) / 8 ≤ s.config.outCap.toNat →
        exec .riceEmit s = .next
          (({ s with out := s.out ++ bits } : State).answered (BitVec.ofNat 64 (s.out.length + bits.length)))))

/-- 41_rice.md R144: in a state that meets the invariant, RICE_EMIT with RP_VALID set never stops, and appends exactly
RP_COST bits if they fit. -/
def Obligations.EmitLengthIsRpCost : Prop :=
  ∀ s : State, s.Inv → s.fault = 0 → s.wstate = .opened → s.rpValid = true →
    (s.config.outCap.toNat < (s.out.length + s.rpCost.toNat) / 8 → exec .riceEmit s = .next (s.faulted 5)) ∧
    ((s.out.length + s.rpCost.toNat) / 8 ≤ s.config.outCap.toNat →
      ∃ bits : Bits, bits.length = s.rpCost.toNat ∧
        exec .riceEmit s = .next
          (({ s with out := s.out ++ bits } : State).answered (BitVec.ofNat 64 (s.out.length + s.rpCost.toNat))))

/-- 41_rice.md R145: the reader recovers the residuals from the section RICE_EMIT appended, whatever follows it. -/
def Obligations.EmittedSectionReadsBack : Prop :=
  ∀ s t : State, s.Inv → s.rpValid = true → exec .riceEmit s = .next t → t.fault = 0 →
    ∃ (bits : Bits) (words : List (BitVec 32)), t.out = s.out ++ bits ∧
      s.res.readRange 0 (s.rpBlockSize.toNat - s.rpPred.toNat) = some words ∧
      ∀ rest : Bits, readSection s.rpBlockSize.toNat s.rpPred.toNat (bits ++ rest) =
        some (words.map fun w => w.toInt, rest)

/-- 41_rice.md R146: READ_KTAB, FAULT zero or not. -/
def Obligations.ReadKtabRule : Prop :=
  ∀ (idx : BitVec 15) (s : State),
    encode (.readKtab idx) = ⟨0x34000000, idx.setWidth 64⟩ ∧
    (s.rpValid = false → s.fault = 0 → exec (.readKtab idx) s = .next (s.faulted 2)) ∧
    (s.rpValid = true → 2 ^ s.rpOrder.toNat ≤ idx.toNat → s.fault = 0 →
      exec (.readKtab idx) s = .next (s.faulted 4)) ∧
    (s.rpValid = false ∨ 2 ^ s.rpOrder.toNat ≤ idx.toNat → s.fault ≠ 0 →
      exec (.readKtab idx) s = .next (s.answered 0)) ∧
    (s.rpValid = true → idx.toNat < 2 ^ s.rpOrder.toNat →
      exec (.readKtab idx) s = .next (s.answered ((s.ktabEntry idx.toNat).setWidth 64)))

/-- 70_reset_and_hazards.md R255: a RICE_EMIT right after a LOAD_RES raises STATE (2). -/
def Obligations.EmitAfterLoadRaisesState : Prop :=
  ∀ (idx : BitVec 16) (val : BitVec 32) (s t : State), s.wstate = .opened → exec (.loadRes idx val) s = .next t →
    t.fault = 0 → exec .riceEmit t = .next (t.faulted 2)

/-! ### Frame header commands -/

/-- 42_frame_header.md R161: the block size codes. -/
def Obligations.BlockSizeCodes : Prop :=
  ∀ bs : Nat, 1 ≤ bs → bs ≤ 65535 →
    (bs = 192 → blockSizeCode bs = 1) ∧
    (∀ c, 2 ≤ c → c ≤ 5 → bs = 576 * 2 ^ (c - 2) → blockSizeCode bs = c) ∧
    (∀ c, 8 ≤ c → c ≤ 15 → bs = 256 * 2 ^ (c - 8) → blockSizeCode bs = c) ∧
    (bs ≠ 192 → (∀ c, 2 ≤ c → c ≤ 5 → bs ≠ 576 * 2 ^ (c - 2)) → (∀ c, 8 ≤ c → c ≤ 15 → bs ≠ 256 * 2 ^ (c - 8)) →
      (bs ≤ 256 → blockSizeCode bs = 6 ∧ blockSizeField bs = [BitVec.ofNat 8 (bs - 1)]) ∧
      (257 ≤ bs → blockSizeCode bs = 7 ∧
        blockSizeField bs = [BitVec.ofNat 8 ((bs - 1) >>> 8), BitVec.ofNat 8 ((bs - 1) % 256)])) ∧
    (blockSizeCode bs ≠ 6 → blockSizeCode bs ≠ 7 → blockSizeField bs = []) ∧
    blockSizeCode bs ≠ 0

/-- 42_frame_header.md R162: the sample rate codes, the first row that applies. -/
def Obligations.SampleRateCodes : Prop :=
  ∀ rate : Nat, 8000 ≤ rate → rate ≤ 192000 →
    let table : List (Nat × Nat) := [(88200, 1), (176400, 2), (192000, 3), (8000, 4), (16000, 5), (22050, 6),
      (24000, 7), (32000, 8), (44100, 9), (48000, 10), (96000, 11)]
    (∀ row ∈ table, rate = row.1 → rateCode rate = row.2 ∧ rateField rate = []) ∧
    ((∀ row ∈ table, rate ≠ row.1) →
      (rate % 1000 = 0 → rateCode rate = 12 ∧ rateField rate = [BitVec.ofNat 8 (rate / 1000)]) ∧
      (rate % 1000 ≠ 0 → rate % 10 = 0 → rateCode rate = 14 ∧
        rateField rate = [BitVec.ofNat 8 ((rate / 10) >>> 8), BitVec.ofNat 8 (rate / 10 % 256)]) ∧
      (rate % 10 ≠ 0 → rate ≤ 65535 → rateCode rate = 13 ∧
        rateField rate = [BitVec.ofNat 8 (rate >>> 8), BitVec.ofNat 8 (rate % 256)]) ∧
      (rate % 10 ≠ 0 → 65535 < rate → rateCode rate = 0 ∧ rateField rate = []))

/-- 42_frame_header.md R166: the bit depth codes. -/
def Obligations.BitDepthCodes : Prop :=
  depthCode 8 = 1 ∧ depthCode 12 = 2 ∧ depthCode 16 = 4 ∧ depthCode 20 = 5 ∧ depthCode 24 = 6 ∧ depthCode 32 = 7 ∧
  ∀ bps : Nat, 4 ≤ bps → bps ≤ 32 → bps ∉ [8, 12, 16, 20, 24, 32] → depthCode bps = 0

/-- 42_frame_header.md R165: the coded number. -/
def Obligations.CodedNumberBytes : Prop :=
  ∀ v : Nat, v < 2 ^ 36 →
    (v < 2 ^ 7 → codedNumber v = [BitVec.ofNat 8 v]) ∧
    (2 ^ 7 ≤ v → ∃ n, 2 ≤ n ∧ n ≤ 7 ∧ v < 2 ^ (5 * n + 1) ∧ (∀ m, 2 ≤ m → m < n → 2 ^ (5 * m + 1) ≤ v) ∧
      codedNumber v = BitVec.ofNat 8 ((0xFF <<< (8 - n)) % 256 ||| v >>> (6 * (n - 1))) ::
        (List.range' 1 (n - 1)).map fun i => BitVec.ofNat 8 (0x80 ||| (v >>> (6 * (n - 1 - i))) % 64))

/-- 42_frame_header.md R163: the CRC-8 loop, its check value, and what it covers. -/
def Obligations.Crc8IsTheSpecsLoop : Prop :=
  crc8 [] = 0 ∧
  (∀ (bytes : List Byte) (b : Byte), crc8 (bytes ++ [b]) =
    (fun c : Byte => if c.getLsbD 7 then (c <<< 1) ^^^ 0x07 else c <<< 1)^[8] (crc8 bytes ^^^ b)) ∧
  crc8 [0x31, 0x32, 0x33, 0x34, 0x35, 0x36, 0x37, 0x38, 0x39] = 0xF4 ∧
  ∀ strat bs rate ch bps num : Nat, frameHeaderBytes strat bs rate ch bps num =
    headerBody strat bs rate ch bps num ++ [crc8 (headerBody strat bs rate ch bps num)]

/-- 42_frame_header.md R172, 95_test_vectors.md L1: the header a FRAME_HEADER appends has CRC 0, and a change of any
single bit of it has not. -/
def Obligations.HeaderCrcDetectsSingleBitErrors : Prop :=
  ∀ (strat : BitVec 1) (bs : BitVec 16) (rate : BitVec 18) (ch : BitVec 4) (bps : BitVec 6) (num : BitVec 36)
    (s t : State), exec (.frameHeader strat bs rate ch bps num) s = .next t → t.fault = 0 →
    ∃ header : List Byte, t.out = s.out ++ header.flatMap (fun b => bitsOf b.toNat 8) ∧
      t.hdrLen.toNat = header.length ∧ crc8 header = 0 ∧
      ∀ (i j : Nat) (b : Byte), header[i]? = some b → j < 8 → crc8 (header.set i (b ^^^ (1#8 <<< j))) ≠ 0

/-- 42_frame_header.md R168: FRAME_HEADER's encoding and its eight checks, the first that fails naming the fault. -/
def Obligations.FrameHeaderFaults : Prop :=
  ∀ (strat : BitVec 1) (bs : BitVec 16) (rate : BitVec 18) (ch : BitVec 4) (bps : BitVec 6) (num : BitVec 36)
    (s : State), s.fault = 0 →
    encode (.frameHeader strat bs rate ch bps num) =
      ⟨0x38000000 ||| (rate.setWidth 32 <<< 8) ||| (ch.setWidth 32 <<< 4) ||| (strat.setWidth 32 <<< 3),
        (bps.setWidth 64 <<< 52) ||| (bs.setWidth 64 <<< 36) ||| num.setWidth 64⟩ ∧
    let header := frameHeaderBytes strat.toNat bs.toNat rate.toNat ch.toNat bps.toNat num.toNat
    let code : BitVec 4 :=
      if s.wstate = .finished then 2
      else if s.out.length % 8 ≠ 0 then 9
      else if rate.toNat < 8000 ∨ 192000 < rate.toNat then 10
      else if ch.toNat ∉ [0, 1, 8, 9, 10] then 11
      else if bs.toNat = 0 then 6
      else if bps.toNat < 4 ∨ 32 < bps.toNat then 12
      else if (strat = 0 ∧ 2 ^ 31 ≤ num.toNat) ∨ (s.seqStrat ≠ 0 ∧ s.seqStrat.toNat ≠ strat.toNat + 1) ∨
        num.toNat ≠ s.seqNext.toNat then 13
      else if s.config.outCap.toNat < (s.out.length + 8 * header.length) / 8 then 5
      else 0
    code ≠ 0 → exec (.frameHeader strat bs rate ch bps num) s = .next (s.faulted code)

/-- 42_frame_header.md R160, R168: when its eight checks pass FRAME_HEADER appends the header bytes, and sets
CRC8_LAST, HDR_LEN, SEQ_STRAT and SEQ_NEXT. -/
def Obligations.FrameHeaderEffect : Prop :=
  ∀ (strat : BitVec 1) (bs : BitVec 16) (rate : BitVec 18) (ch : BitVec 4) (bps : BitVec 6) (num : BitVec 36)
    (s : State),
    let bc := blockSizeCode bs.toNat
    let sc := rateCode rate.toNat
    let body : List Byte :=
      [0xFF, BitVec.ofNat 8 (0xF8 ||| strat.toNat), BitVec.ofNat 8 ((bc <<< 4) ||| sc),
        BitVec.ofNat 8 ((ch.toNat <<< 4) ||| (depthCode bps.toNat <<< 1))] ++ codedNumber num.toNat ++
      (if bc = 6 then [BitVec.ofNat 8 (bs.toNat - 1)]
        else if bc = 7 then [BitVec.ofNat 8 ((bs.toNat - 1) >>> 8), BitVec.ofNat 8 ((bs.toNat - 1) % 256)] else []) ++
      (if sc = 12 then [BitVec.ofNat 8 (rate.toNat / 1000)]
        else if sc = 13 then [BitVec.ofNat 8 (rate.toNat >>> 8), BitVec.ofNat 8 (rate.toNat % 256)]
        else if sc = 14 then [BitVec.ofNat 8 ((rate.toNat / 10) >>> 8), BitVec.ofNat 8 (rate.toNat / 10 % 256)] else [])
    let header := body ++ [crc8 body]
    s.fault = 0 → s.wstate = .opened → s.out.length % 8 = 0 → 8000 ≤ rate.toNat → rate.toNat ≤ 192000 →
    ch.toNat ∈ [0, 1, 8, 9, 10] → 1 ≤ bs.toNat → 4 ≤ bps.toNat → bps.toNat ≤ 32 →
    (strat = 0 → num.toNat < 2 ^ 31) → (s.seqStrat = 0 ∨ s.seqStrat.toNat = strat.toNat + 1) →
    num.toNat = s.seqNext.toNat → (s.out.length + 8 * header.length) / 8 ≤ s.config.outCap.toNat →
    exec (.frameHeader strat bs rate ch bps num) s = .next
      (({ s with
        out := s.out ++ header.flatMap fun b => bitsOf b.toNat 8
        crc8Last := crc8 body
        hdrLen := BitVec.ofNat 5 header.length
        seqStrat := BitVec.ofNat 2 (strat.toNat + 1)
        seqNext := BitVec.ofNat 37 (num.toNat + if strat = 0 then 1 else bs.toNat) } : State).answered
        (BitVec.ofNat 64 (s.out.length + 8 * header.length)))

/-- 42_frame_header.md R171: a header is 6 to 16 bytes long, so one always fits an empty buffer. -/
def Obligations.HeaderAlwaysFitsEmptyBuffer : Prop :=
  (∀ strat bs rate ch bps num : Nat,
    6 ≤ (frameHeaderBytes strat bs rate ch bps num).length ∧ (frameHeaderBytes strat bs rate ch bps num).length ≤ 16) ∧
  ∀ (strat : BitVec 1) (bs : BitVec 16) (rate : BitVec 18) (ch : BitVec 4) (bps : BitVec 6) (num : BitVec 36)
    (s : State), s.config.Legal → s.fault = 0 → s.wstate = .opened → s.out = [] → 8000 ≤ rate.toNat →
    rate.toNat ≤ 192000 → ch.toNat ∈ [0, 1, 8, 9, 10] → 1 ≤ bs.toNat → 4 ≤ bps.toNat → bps.toNat ≤ 32 →
    (strat = 0 → num.toNat < 2 ^ 31) → (s.seqStrat = 0 ∨ s.seqStrat.toNat = strat.toNat + 1) →
    num.toNat = s.seqNext.toNat →
    ∃ t, exec (.frameHeader strat bs rate ch bps num) s = .next t ∧ t.fault = 0 ∧ t.outLen = t.hdrLen.toNat

/-- 42_frame_header.md R169: a header that completes right after another keeps its strategy and carries the next frame
number, or the next sample number. -/
def Obligations.HeadersFollowTheSequence : Prop :=
  ∀ (strat strat' : BitVec 1) (bs bs' : BitVec 16) (rate rate' : BitVec 18) (ch ch' : BitVec 4) (bps bps' : BitVec 6)
    (num num' : BitVec 36) (s t u : State),
    exec (.frameHeader strat bs rate ch bps num) s = .next t → t.fault = 0 →
    exec (.frameHeader strat' bs' rate' ch' bps' num') t = .next u → u.fault = 0 →
    strat' = strat ∧ num'.toNat = num.toNat + if strat = 0 then 1 else bs.toNat

/-- 42_frame_header.md R170: SEQ_SET. -/
def Obligations.SeqSetRule : Prop :=
  ∀ (sstrat : BitVec 2) (next : BitVec 36) (s : State), s.fault = 0 →
    encode (.seqSet sstrat next) = ⟨0x3C000000 ||| sstrat.setWidth 32, next.setWidth 64⟩ ∧
    (sstrat = 3 → exec (.seqSet sstrat next) s = .next (s.faulted 3)) ∧
    (sstrat = 1 → 2 ^ 31 ≤ next.toNat → exec (.seqSet sstrat next) s = .next (s.faulted 13)) ∧
    (sstrat ≠ 3 → (sstrat = 1 → next.toNat < 2 ^ 31) →
      exec (.seqSet sstrat next) s = .next
        (({ s with seqStrat := sstrat, seqNext := next.setWidth 37 } : State).answered 0))

end Slice0
end

