-- ==== Sys2Proof/Laws/Bits.lean ====
section
/-! SUPPORT. Bit strings: lengths, and the number a bit string spells. -/

namespace Sys2Proof.Machine

@[simp] theorem length_bitsOf (v w : Nat) : (bitsOf v w).length = w := by
  induction w with
  | zero => rfl
  | succ w ih => simp [bitsOf, ih]

@[simp] theorem length_zeros (n : Nat) : (zeros n).length = n := by simp [zeros]

theorem getElem?_bitsOf (v w i : Nat) (h : i < w) : (bitsOf v w)[i]? = some (v.testBit (w - 1 - i)) := by
  induction w generalizing i with
  | zero => omega
  | succ w ih =>
    cases i with
    | zero => simp [bitsOf]
    | succ i =>
      have h' : i < w := by omega
      have e : w - 1 - i = w + 1 - 1 - (i + 1) := by omega
      rw [bitsOf, List.getElem?_cons_succ, ih i h', e]

/-- Splitting a field at any place. -/
theorem bitsOf_add (v a b : Nat) : bitsOf v (a + b) = bitsOf (v >>> b) a ++ bitsOf v b := by
  induction a with
  | zero => simp [bitsOf]
  | succ a ih =>
    rw [show a + 1 + b = (a + b) + 1 by omega]
    rw [bitsOf, bitsOf, ih, Nat.testBit_shiftRight, Nat.add_comm b a, List.cons_append]

/-- Only the low `w` bits matter. -/
theorem bitsOf_mod (v w n : Nat) (h : w ≤ n) : bitsOf (v % 2 ^ n) w = bitsOf v w := by
  induction w with
  | zero => rfl
  | succ w ih => simp [bitsOf, ih (by omega), Nat.testBit_mod_two_pow, show w < n by omega]

theorem bitsOf_zero (w : Nat) : bitsOf 0 w = zeros w := by
  induction w with
  | zero => rfl
  | succ w ih => simp [bitsOf, ih, zeros, List.replicate_succ]

theorem bitsToNatFrom_append (acc : Nat) (a b : Bits) :
    bitsToNatFrom acc (a ++ b) = bitsToNatFrom (bitsToNatFrom acc a) b := by
  induction a generalizing acc with
  | nil => rfl
  | cons x a ih => simp [bitsToNatFrom, ih]

theorem bitsToNatFrom_eq (acc : Nat) (bs : Bits) : bitsToNatFrom acc bs = acc * 2 ^ bs.length + bitsToNat bs := by
  induction bs generalizing acc with
  | nil => simp [bitsToNatFrom, bitsToNat]
  | cons x bs ih =>
    have h := ih (2 * 0 + x.toNat)
    simp only [bitsToNatFrom, bitsToNat, ih (2 * acc + x.toNat), List.length_cons, pow_succ] at h ⊢
    rw [h]
    ring

@[simp] theorem bitsToNat_nil : bitsToNat [] = 0 := rfl

theorem bitsToNat_cons (b : Bool) (bs : Bits) : bitsToNat (b :: bs) = b.toNat * 2 ^ bs.length + bitsToNat bs := by
  have h := bitsToNatFrom_eq (2 * 0 + b.toNat) bs
  simpa [bitsToNat, bitsToNatFrom] using h

theorem bitsToNat_lt (bs : Bits) : bitsToNat bs < 2 ^ bs.length := by
  induction bs with
  | nil => simp
  | cons b bs ih =>
    rw [bitsToNat_cons, List.length_cons, pow_succ]
    cases b <;> simp <;> omega

/-- Reading a field back gives its value. -/
theorem bitsToNat_bitsOf (v w : Nat) : bitsToNat (bitsOf v w) = v % 2 ^ w := by
  induction w with
  | zero => simp [bitsOf, Nat.mod_one]
  | succ w ih =>
    rw [bitsOf, bitsToNat_cons, ih, length_bitsOf, Nat.testBit_eq_decide_div_mod_eq]
    have h := Nat.mod_pow_succ (b := 2) (k := w) (x := v)
    rcases Nat.mod_two_eq_zero_or_one (v / 2 ^ w) with h0 | h0 <;> simp [h0] at h ⊢ <;> omega

/-- Each bit of a string is a bit of the number it spells, the first one on top. -/
theorem getElem?_eq_testBit (bs : Bits) (i : Nat) (h : i < bs.length) :
    bs[i]? = some ((bitsToNat bs).testBit (bs.length - 1 - i)) := by
  induction bs generalizing i with
  | nil => simp at h
  | cons b bs ih =>
    rw [bitsToNat_cons, Nat.mul_comm, Nat.testBit_two_pow_mul_add _ (bitsToNat_lt bs)]
    cases i with
    | zero => cases b <;> simp
    | succ i =>
      simp only [List.length_cons] at h ⊢
      rw [if_pos (by omega), List.getElem?_cons_succ, ih i (by omega)]
      congr 2
      omega

@[simp] theorem length_bytesToBits (bytes : List Byte) : (bytesToBits bytes).length = 8 * bytes.length := by
  induction bytes with
  | nil => rfl
  | cons b bytes ih =>
    simp only [bytesToBits, List.flatMap_cons, List.length_append, length_bitsOf, List.length_cons] at ih ⊢
    omega

theorem bytesToBits_append (a b : List Byte) : bytesToBits (a ++ b) = bytesToBits a ++ bytesToBits b := by
  simp [bytesToBits]

/-- The pad completes the byte. -/
theorem padLength_spec (n : Nat) : (n + padLength n) % 8 = 0 ∧ padLength n < 8 := by
  unfold padLength
  omega

end Sys2Proof.Machine
end

