-- ==== Sys2Proof/Laws/PerInstr.lean ====
section
/-! SUPPORT. Statements made once for each command. -/

namespace Sys2Proof.Laws

open Sys2Proof

/-- Two words with equal bits are equal; the bits of the right side are those of a literal. -/
theorem word_ext {w : Nat} {a b : BitVec w} (h : ∀ i < w, a.getLsbD i = b.getLsbD i) : a = b :=
  BitVec.eq_of_getLsbD_eq h

namespace LegalEncoding

/-- The opcode of a command (30_encoding.md R73). -/
def opcode : Instr → Nat
  | .nop => 0x00
  | .clear => 0x01
  | .writeBits _ _ => 0x02
  | .writeUnary _ => 0x03
  | .align => 0x04
  | .finish => 0x05
  | .readOut _ => 0x06
  | .readReg _ => 0x07
  | .loadRes _ _ => 0x08
  | .riceChoose _ _ _ => 0x09
  | .riceEncode _ _ _ => 0x0A
  | .ricePartition _ _ _ _ => 0x0B
  | .riceEmit => 0x0C
  | .readKtab _ => 0x0D
  | .frameHeader _ _ _ _ _ _ => 0x0E
  | .seqSet _ _ => 0x0F

/-- The encoder writes no reserved bit: the transaction it makes is the command of its opcode's row
(30_encoding.md R72, R73). -/
def Statement (i : Instr) : Prop := (opcodeTable[opcode i]?.map fun r => r.isCommand (encode i)) = some true

/-- How each lemma goes: name the row, then compare the masked words bit by bit. -/
theorem of_row {i : Instr} {r : OpcodeRow} (hr : opcodeTable[opcode i]? = some r)
    (hc : (encode i).cmd &&& r.mask = r.pattern) (ha : (encode i).arg &&& r.argZero = 0) : Statement i := by
  simp only [Statement, hr, Option.map_some, OpcodeRow.isCommand, hc, ha, BEq.rfl, Bool.and_self]

theorem nop : Statement .nop := of_row rfl (by decide) (by decide)

theorem clear : Statement .clear := of_row rfl (by decide) (by decide)

theorem writeBits (w : BitVec 7) (v : BitVec 64) : Statement (.writeBits w v) := by
  refine of_row rfl (word_ext fun i hi => ?_) BitVec.and_zero
  simp only [encode, BitVec.getLsbD_append, BitVec.getLsbD_and]
  interval_cases i <;> simp

theorem writeUnary (n : BitVec 64) : Statement (.writeUnary n) :=
  of_row rfl (of_decide_eq_true rfl : (0x03#6 ++ 0#26 : BitVec 32) &&& 0xFFFFFFFF = 0x0C000000)
    BitVec.and_zero

theorem align : Statement .align := of_row rfl (by decide) (by decide)

theorem finish : Statement .finish := of_row rfl (by decide) (by decide)

theorem readOut (addr : BitVec 32) : Statement (.readOut addr) := by
  refine of_row rfl (of_decide_eq_true rfl : (0x06#6 ++ 0#26 : BitVec 32) &&& 0xFFFFFFFF = 0x18000000)
    (word_ext fun i hi => ?_)
  simp only [encode, BitVec.getLsbD_append, BitVec.getLsbD_and]
  interval_cases i <;> simp

theorem readReg (reg : BitVec 8) : Statement (.readReg reg) := by
  refine of_row rfl (word_ext fun i hi => ?_) (by simp [encode])
  simp only [encode, BitVec.getLsbD_append, BitVec.getLsbD_and]
  interval_cases i <;> simp

theorem loadRes (idx : BitVec 16) (val : BitVec 32) : Statement (.loadRes idx val) := by
  refine of_row rfl (word_ext fun i hi => ?_) (word_ext fun i hi => ?_) <;>
    simp only [encode, BitVec.getLsbD_append, BitVec.getLsbD_and] <;> interval_cases i <;> simp

theorem riceChoose (k : BitVec 5) (start count : BitVec 16) : Statement (.riceChoose k start count) := by
  refine of_row rfl (word_ext fun i hi => ?_) (word_ext fun i hi => ?_) <;>
    simp only [encode, BitVec.getLsbD_append, BitVec.getLsbD_and] <;> interval_cases i <;> simp

theorem riceEncode (k : BitVec 5) (start count : BitVec 16) : Statement (.riceEncode k start count) := by
  refine of_row rfl (word_ext fun i hi => ?_) (word_ext fun i hi => ?_) <;>
    simp only [encode, BitVec.getLsbD_append, BitVec.getLsbD_and] <;> interval_cases i <;> simp

theorem ricePartition (pmin pmax : BitVec 4) (pred : BitVec 6) (bs : BitVec 16) :
    Statement (.ricePartition pmin pmax pred bs) := by
  refine of_row rfl (word_ext fun i hi => ?_) (word_ext fun i hi => ?_) <;>
    simp only [encode, BitVec.getLsbD_append, BitVec.getLsbD_and] <;> interval_cases i <;> simp

theorem riceEmit : Statement .riceEmit := of_row rfl (by decide) (by decide)

theorem readKtab (idx : BitVec 15) : Statement (.readKtab idx) := by
  refine of_row rfl (of_decide_eq_true rfl : (0x0D#6 ++ 0#26 : BitVec 32) &&& 0xFFFFFFFF = 0x34000000)
    (word_ext fun i hi => ?_)
  simp only [encode, BitVec.getLsbD_append, BitVec.getLsbD_and]
  interval_cases i <;> simp

theorem frameHeader (strat : BitVec 1) (bs : BitVec 16) (rate : BitVec 18) (ch : BitVec 4) (bps : BitVec 6)
    (num : BitVec 36) : Statement (.frameHeader strat bs rate ch bps num) := by
  refine of_row rfl (word_ext fun i hi => ?_) (word_ext fun i hi => ?_) <;>
    simp only [encode, BitVec.getLsbD_append, BitVec.getLsbD_and] <;> interval_cases i <;> simp

theorem seqSet (sstrat : BitVec 2) (next : BitVec 36) : Statement (.seqSet sstrat next) := by
  refine of_row rfl (word_ext fun i hi => ?_) (word_ext fun i hi => ?_) <;>
    simp only [encode, BitVec.getLsbD_append, BitVec.getLsbD_and] <;> interval_cases i <;> simp

end LegalEncoding

end Sys2Proof.Laws
end

