-- ==== Sys2Proof/Laws/Decode.lean ====
section
/-! SUPPORT. The decoder through the rows of the opcode map: a transaction decodes exactly by the row whose command it
is. -/

namespace Sys2Proof.Laws

open Sys2Proof

theorem row_index_lt {n : Nat} {r : OpcodeRow} (hr : opcodeTable[n]? = some r) : n < 16 :=
  (List.getElem?_eq_some_iff.mp hr).1

/-- Every row's mask covers the opcode. -/
theorem opcodeOf_mask {n : Nat} {r : OpcodeRow} (hr : opcodeTable[n]? = some r) : opcodeOf r.mask = 0x3F := by
  have hn := row_index_lt hr
  interval_cases n <;> cases hr <;> decide

/-- The `n`-th row is that of opcode `n`. -/
theorem opcodeOf_pattern {n : Nat} {r : OpcodeRow} (hr : opcodeTable[n]? = some r) : (opcodeOf r.pattern).toNat = n := by
  have hn := row_index_lt hr
  interval_cases n <;> cases hr <;> decide

/-- A row is found by its opcode. -/
theorem find_row {n : Nat} {r : OpcodeRow} (hr : opcodeTable[n]? = some r) :
    (opcodeTable.find? fun r' => opcodeOf r'.pattern == opcodeOf r.pattern) = some r := by
  have hn := row_index_lt hr
  interval_cases n <;> cases hr <;> rfl

/-- A word whose masked bits are a row's pattern has the row's opcode. -/
theorem opcodeOf_of_masked {n : Nat} {r : OpcodeRow} {cmd : BitVec 32} (hr : opcodeTable[n]? = some r)
    (h : cmd &&& r.mask = r.pattern) : opcodeOf cmd = opcodeOf r.pattern := by
  have hm := opcodeOf_mask hr
  rw [← h]
  refine word_ext fun i hi => ?_
  have hi' : (opcodeOf r.mask).getLsbD i = true := by rw [hm]; interval_cases i <;> rfl
  simp only [BitVec.getLsbD_extractLsb', BitVec.getLsbD_and, Bool.and_eq_true] at hi' ⊢
  simp [hi'.2]

theorem decode_of_row {t : Transaction} {n : Nat} {r : OpcodeRow} (hr : opcodeTable[n]? = some r)
    (hc : t.cmd &&& r.mask = r.pattern) (ha : t.arg &&& r.argZero = 0) : decode t = .ok (r.operands t) := by
  simp only [decode, opcodeOf_of_masked hr hc, find_row hr, hc, ha, ne_eq, not_true_eq_false, if_false]

theorem row_of_decode {t : Transaction} {i : Instr} (h : decode t = .ok i) :
    ∃ (n : Nat) (r : OpcodeRow), opcodeTable[n]? = some r ∧ t.cmd &&& r.mask = r.pattern ∧ t.arg &&& r.argZero = 0 ∧
      i = r.operands t := by
  unfold decode at h
  split at h
  · cases h
  · rename_i r hr
    split at h
    · cases h
    · split at h
      · cases h
      · rename_i h1 h2
        cases h
        obtain ⟨n, hn⟩ := List.getElem?_of_mem (List.mem_of_find?_eq_some hr)
        exact ⟨n, r, hn, not_not.mp h1, not_not.mp h2, rfl⟩

/-- The transaction of a command decodes by the command's own row. -/
theorem decode_encode_row {i : Instr} (h : LegalEncoding.Statement i) :
    ∃ r, opcodeTable[LegalEncoding.opcode i]? = some r ∧ decode (encode i) = .ok (r.operands (encode i)) := by
  obtain ⟨r, hr, hc⟩ := Option.map_eq_some_iff.mp h
  simp only [OpcodeRow.isCommand, Bool.and_eq_true, beq_iff_eq] at hc
  exact ⟨r, hr, decode_of_row hr hc.1 hc.2⟩

end Sys2Proof.Laws
end

