-- ==== Sys2Proof/Laws/Header.lean ====
section
/-! SUPPORT. The frame header's parts: lengths, and the algebra of the CRC-8. -/

namespace Sys2Proof.Machine

@[simp] theorem length_continuationBytes (v n : Nat) : (continuationBytes v n).length = n := by
  induction n with
  | zero => rfl
  | succ n ih => simp [continuationBytes, ih]

theorem codedLength_bounds (v : Nat) : 1 ≤ codedLength v ∧ codedLength v ≤ 7 := by
  unfold codedLength; split_ifs <;> omega

@[simp] theorem length_codedNumber (v : Nat) : (codedNumber v).length = codedLength v := by
  have h := codedLength_bounds v
  by_cases h1 : codedLength v = 1
  · simp [codedNumber, h1]
  · simp [codedNumber, h1]; omega

@[simp] theorem length_bytes16 (v : Nat) : (bytes16 v).length = 2 := rfl

theorem length_blockSizeField (bs : Nat) : (blockSizeField bs).length =
    if blockSizeCode bs = 6 then 1 else if blockSizeCode bs = 7 then 2 else 0 := by
  unfold blockSizeField
  split <;> simp_all

theorem length_rateField (rate : Nat) : (rateField rate).length =
    if rateCode rate = 12 then 1 else if rateCode rate = 13 ∨ rateCode rate = 14 then 2 else 0 := by
  unfold rateField
  split <;> simp_all

@[simp] theorem length_headerBody (strat bs rate ch bps num : Nat) :
    (headerBody strat bs rate ch bps num).length =
      4 + codedLength num + (blockSizeField bs).length + (rateField rate).length := by
  simp [headerBody]; omega

@[simp] theorem length_frameHeaderBytes (strat bs rate ch bps num : Nat) :
    (frameHeaderBytes strat bs rate ch bps num).length =
      4 + codedLength num + (blockSizeField bs).length + (rateField rate).length + 1 := by
  simp [frameHeaderBytes]

theorem frameHeaderBytes_getLastD (strat bs rate ch bps num : Nat) (d : Byte) :
    (frameHeaderBytes strat bs rate ch bps num).getLastD d = crc8 (headerBody strat bs rate ch bps num) := by
  simp [frameHeaderBytes]

@[simp] theorem crc8_nil : crc8 [] = 0 := rfl

theorem crc8_append_singleton (bytes : List Byte) (b : Byte) : crc8 (bytes ++ [b]) = crc8Byte (crc8 bytes) b := by
  simp [crc8]

/-- The shift undone. -/
def crc8Unshift (c : Byte) : Byte := if c.getLsbD 0 then (c ^^^ 0x07) >>> 1 ||| 0x80 else c >>> 1

theorem crc8Unshift_shift : ∀ c : Byte, crc8Unshift (crc8Shift c) = c := by decide

/-- A shift loses nothing: the generator's constant term is 1. -/
theorem crc8Shift_injective {a b : Byte} (h : crc8Shift a = crc8Shift b) : a = b := by
  rw [← crc8Unshift_shift a, h, crc8Unshift_shift]

theorem crc8Byte_injective_left {a b x : Byte} (h : crc8Byte a x = crc8Byte b x) : a = b := by
  unfold crc8Byte at h
  have h' := crc8Shift_injective (crc8Shift_injective (crc8Shift_injective (crc8Shift_injective
    (crc8Shift_injective (crc8Shift_injective (crc8Shift_injective (crc8Shift_injective h)))))))
  simpa using congrArg (· ^^^ x) h'

theorem crc8Byte_injective_right {c a b : Byte} (h : crc8Byte c a = crc8Byte c b) : a = b := by
  have comm (x y : Byte) : crc8Byte x y = crc8Byte y x := by simp only [crc8Byte, BitVec.xor_comm]
  rw [comm c a, comm c b] at h
  exact crc8Byte_injective_left h

theorem headerBody_length_bounds (strat bs rate ch bps num : Nat) :
    6 ≤ (headerBody strat bs rate ch bps num).length + 1 ∧ (headerBody strat bs rate ch bps num).length + 1 ≤ 16 := by
  have h := codedLength_bounds num
  have h1 : (blockSizeField bs).length ≤ 2 := by rw [length_blockSizeField]; split_ifs <;> omega
  have h2 : (rateField rate).length ≤ 2 := by rw [length_rateField]; split_ifs <;> omega
  rw [length_headerBody]
  omega

/-- Adding the CRC in ends the division. -/
theorem crc8Byte_self (c : Byte) : crc8Byte c c = 0 := by
  simp [crc8Byte, crc8Shift]

end Sys2Proof.Machine
end

