-- ==== Sys2Proof/Laws/State.lean ====
section
/-! SUPPORT. What each named update of the state does to each field, so that no later proof unfolds one. -/

namespace Sys2Proof.Machine

variable (s : State)

/-! ### `State.record` -/

@[simp] theorem State.record_config (v : BitVec 64) : (s.record v).config = s.config := rfl
@[simp] theorem State.record_out (v : BitVec 64) : (s.record v).out = s.out := rfl
@[simp] theorem State.record_wstate (v : BitVec 64) : (s.record v).wstate = s.wstate := rfl
@[simp] theorem State.record_res (v : BitVec 64) : (s.record v).res = s.res := rfl
@[simp] theorem State.record_rcK (v : BitVec 64) : (s.record v).rcK = s.rcK := rfl
@[simp] theorem State.record_rcCost (v : BitVec 64) : (s.record v).rcCost = s.rcCost := rfl
@[simp] theorem State.record_rpOrder (v : BitVec 64) : (s.record v).rpOrder = s.rpOrder := rfl
@[simp] theorem State.record_rpMethod (v : BitVec 64) : (s.record v).rpMethod = s.rpMethod := rfl
@[simp] theorem State.record_rpCost (v : BitVec 64) : (s.record v).rpCost = s.rpCost := rfl
@[simp] theorem State.record_rpBlockSize (v : BitVec 64) : (s.record v).rpBlockSize = s.rpBlockSize := rfl
@[simp] theorem State.record_rpPred (v : BitVec 64) : (s.record v).rpPred = s.rpPred := rfl
@[simp] theorem State.record_rpValid (v : BitVec 64) : (s.record v).rpValid = s.rpValid := rfl
@[simp] theorem State.record_ktab (v : BitVec 64) : (s.record v).ktab = s.ktab := rfl
@[simp] theorem State.record_seqStrat (v : BitVec 64) : (s.record v).seqStrat = s.seqStrat := rfl
@[simp] theorem State.record_seqNext (v : BitVec 64) : (s.record v).seqNext = s.seqNext := rfl
@[simp] theorem State.record_crc8Last (v : BitVec 64) : (s.record v).crc8Last = s.crc8Last := rfl
@[simp] theorem State.record_hdrLen (v : BitVec 64) : (s.record v).hdrLen = s.hdrLen := rfl
@[simp] theorem State.record_fault (v : BitVec 64) : (s.record v).fault = s.fault := rfl
@[simp] theorem State.record_inputs (v : BitVec 64) : (s.record v).inputs = s.inputs := rfl
@[simp] theorem State.record_responses (v : BitVec 64) :
    (s.record v).responses = { fault := s.fault, resp := v } :: s.responses := rfl

/-! ### `State.latchFault` -/

@[simp] theorem State.latchFault_config (c : FaultCode) : (s.latchFault c).config = s.config := rfl
@[simp] theorem State.latchFault_out (c : FaultCode) : (s.latchFault c).out = s.out := rfl
@[simp] theorem State.latchFault_wstate (c : FaultCode) : (s.latchFault c).wstate = s.wstate := rfl
@[simp] theorem State.latchFault_res (c : FaultCode) : (s.latchFault c).res = s.res := rfl
@[simp] theorem State.latchFault_rcK (c : FaultCode) : (s.latchFault c).rcK = s.rcK := rfl
@[simp] theorem State.latchFault_rcCost (c : FaultCode) : (s.latchFault c).rcCost = s.rcCost := rfl
@[simp] theorem State.latchFault_rpOrder (c : FaultCode) : (s.latchFault c).rpOrder = s.rpOrder := rfl
@[simp] theorem State.latchFault_rpMethod (c : FaultCode) : (s.latchFault c).rpMethod = s.rpMethod := rfl
@[simp] theorem State.latchFault_rpCost (c : FaultCode) : (s.latchFault c).rpCost = s.rpCost := rfl
@[simp] theorem State.latchFault_rpBlockSize (c : FaultCode) : (s.latchFault c).rpBlockSize = s.rpBlockSize := rfl
@[simp] theorem State.latchFault_rpPred (c : FaultCode) : (s.latchFault c).rpPred = s.rpPred := rfl
@[simp] theorem State.latchFault_rpValid (c : FaultCode) : (s.latchFault c).rpValid = s.rpValid := rfl
@[simp] theorem State.latchFault_ktab (c : FaultCode) : (s.latchFault c).ktab = s.ktab := rfl
@[simp] theorem State.latchFault_seqStrat (c : FaultCode) : (s.latchFault c).seqStrat = s.seqStrat := rfl
@[simp] theorem State.latchFault_seqNext (c : FaultCode) : (s.latchFault c).seqNext = s.seqNext := rfl
@[simp] theorem State.latchFault_crc8Last (c : FaultCode) : (s.latchFault c).crc8Last = s.crc8Last := rfl
@[simp] theorem State.latchFault_hdrLen (c : FaultCode) : (s.latchFault c).hdrLen = s.hdrLen := rfl
@[simp] theorem State.latchFault_fault (c : FaultCode) :
    (s.latchFault c).fault = if s.fault = 0 then c.code else s.fault := rfl
@[simp] theorem State.latchFault_inputs (c : FaultCode) : (s.latchFault c).inputs = s.inputs := rfl
@[simp] theorem State.latchFault_responses (c : FaultCode) : (s.latchFault c).responses = s.responses := rfl

/-! ### `State.answered` -/

@[simp] theorem State.answered_config (v : BitVec 64) : (s.answered v).config = s.config := rfl
@[simp] theorem State.answered_out (v : BitVec 64) : (s.answered v).out = s.out := rfl
@[simp] theorem State.answered_wstate (v : BitVec 64) : (s.answered v).wstate = s.wstate := rfl
@[simp] theorem State.answered_res (v : BitVec 64) : (s.answered v).res = s.res := rfl
@[simp] theorem State.answered_rcK (v : BitVec 64) : (s.answered v).rcK = s.rcK := rfl
@[simp] theorem State.answered_rcCost (v : BitVec 64) : (s.answered v).rcCost = s.rcCost := rfl
@[simp] theorem State.answered_rpOrder (v : BitVec 64) : (s.answered v).rpOrder = s.rpOrder := rfl
@[simp] theorem State.answered_rpMethod (v : BitVec 64) : (s.answered v).rpMethod = s.rpMethod := rfl
@[simp] theorem State.answered_rpCost (v : BitVec 64) : (s.answered v).rpCost = s.rpCost := rfl
@[simp] theorem State.answered_rpBlockSize (v : BitVec 64) : (s.answered v).rpBlockSize = s.rpBlockSize := rfl
@[simp] theorem State.answered_rpPred (v : BitVec 64) : (s.answered v).rpPred = s.rpPred := rfl
@[simp] theorem State.answered_rpValid (v : BitVec 64) : (s.answered v).rpValid = s.rpValid := rfl
@[simp] theorem State.answered_ktab (v : BitVec 64) : (s.answered v).ktab = s.ktab := rfl
@[simp] theorem State.answered_seqStrat (v : BitVec 64) : (s.answered v).seqStrat = s.seqStrat := rfl
@[simp] theorem State.answered_seqNext (v : BitVec 64) : (s.answered v).seqNext = s.seqNext := rfl
@[simp] theorem State.answered_crc8Last (v : BitVec 64) : (s.answered v).crc8Last = s.crc8Last := rfl
@[simp] theorem State.answered_hdrLen (v : BitVec 64) : (s.answered v).hdrLen = s.hdrLen := rfl
@[simp] theorem State.answered_fault (v : BitVec 64) : (s.answered v).fault = s.fault := rfl
@[simp] theorem State.answered_inputs (v : BitVec 64) : (s.answered v).inputs = s.inputs := rfl
@[simp] theorem State.answered_responses (v : BitVec 64) :
    (s.answered v).responses = { fault := s.fault, resp := v } :: s.responses := rfl

/-! ### `State.faulted` -/

@[simp] theorem State.faulted_config (code : BitVec 4) : (s.faulted code).config = s.config := rfl
@[simp] theorem State.faulted_out (code : BitVec 4) : (s.faulted code).out = s.out := rfl
@[simp] theorem State.faulted_wstate (code : BitVec 4) : (s.faulted code).wstate = s.wstate := rfl
@[simp] theorem State.faulted_res (code : BitVec 4) : (s.faulted code).res = s.res := rfl
@[simp] theorem State.faulted_rcK (code : BitVec 4) : (s.faulted code).rcK = s.rcK := rfl
@[simp] theorem State.faulted_rcCost (code : BitVec 4) : (s.faulted code).rcCost = s.rcCost := rfl
@[simp] theorem State.faulted_rpOrder (code : BitVec 4) : (s.faulted code).rpOrder = s.rpOrder := rfl
@[simp] theorem State.faulted_rpMethod (code : BitVec 4) : (s.faulted code).rpMethod = s.rpMethod := rfl
@[simp] theorem State.faulted_rpCost (code : BitVec 4) : (s.faulted code).rpCost = s.rpCost := rfl
@[simp] theorem State.faulted_rpBlockSize (code : BitVec 4) : (s.faulted code).rpBlockSize = s.rpBlockSize := rfl
@[simp] theorem State.faulted_rpPred (code : BitVec 4) : (s.faulted code).rpPred = s.rpPred := rfl
@[simp] theorem State.faulted_rpValid (code : BitVec 4) : (s.faulted code).rpValid = s.rpValid := rfl
@[simp] theorem State.faulted_ktab (code : BitVec 4) : (s.faulted code).ktab = s.ktab := rfl
@[simp] theorem State.faulted_seqStrat (code : BitVec 4) : (s.faulted code).seqStrat = s.seqStrat := rfl
@[simp] theorem State.faulted_seqNext (code : BitVec 4) : (s.faulted code).seqNext = s.seqNext := rfl
@[simp] theorem State.faulted_crc8Last (code : BitVec 4) : (s.faulted code).crc8Last = s.crc8Last := rfl
@[simp] theorem State.faulted_hdrLen (code : BitVec 4) : (s.faulted code).hdrLen = s.hdrLen := rfl
@[simp] theorem State.faulted_fault (code : BitVec 4) : (s.faulted code).fault = code := rfl
@[simp] theorem State.faulted_inputs (code : BitVec 4) : (s.faulted code).inputs = s.inputs := rfl
@[simp] theorem State.faulted_responses (code : BitVec 4) :
    (s.faulted code).responses = { fault := code, resp := 0 } :: s.responses := rfl

/-! ### `State.withPartition` -/

@[simp] theorem State.withPartition_config (c : PartitionChoice) (n : Nat) (bs : BitVec 16) (pred : BitVec 6) :
    (s.withPartition c n bs pred).config = s.config := rfl
@[simp] theorem State.withPartition_out (c : PartitionChoice) (n : Nat) (bs : BitVec 16) (pred : BitVec 6) :
    (s.withPartition c n bs pred).out = s.out := rfl
@[simp] theorem State.withPartition_wstate (c : PartitionChoice) (n : Nat) (bs : BitVec 16) (pred : BitVec 6) :
    (s.withPartition c n bs pred).wstate = s.wstate := rfl
@[simp] theorem State.withPartition_res (c : PartitionChoice) (n : Nat) (bs : BitVec 16) (pred : BitVec 6) :
    (s.withPartition c n bs pred).res = s.res := rfl
@[simp] theorem State.withPartition_rcK (c : PartitionChoice) (n : Nat) (bs : BitVec 16) (pred : BitVec 6) :
    (s.withPartition c n bs pred).rcK = s.rcK := rfl
@[simp] theorem State.withPartition_rcCost (c : PartitionChoice) (n : Nat) (bs : BitVec 16) (pred : BitVec 6) :
    (s.withPartition c n bs pred).rcCost = s.rcCost := rfl
@[simp] theorem State.withPartition_rpOrder (c : PartitionChoice) (n : Nat) (bs : BitVec 16) (pred : BitVec 6) :
    (s.withPartition c n bs pred).rpOrder = BitVec.ofNat 4 c.order := rfl
@[simp] theorem State.withPartition_rpMethod (c : PartitionChoice) (n : Nat) (bs : BitVec 16) (pred : BitVec 6) :
    (s.withPartition c n bs pred).rpMethod = BitVec.ofNat 1 c.method := rfl
@[simp] theorem State.withPartition_rpCost (c : PartitionChoice) (n : Nat) (bs : BitVec 16) (pred : BitVec 6) :
    (s.withPartition c n bs pred).rpCost = BitVec.ofNat 64 n := rfl
@[simp] theorem State.withPartition_rpBlockSize (c : PartitionChoice) (n : Nat) (bs : BitVec 16) (pred : BitVec 6) :
    (s.withPartition c n bs pred).rpBlockSize = bs := rfl
@[simp] theorem State.withPartition_rpPred (c : PartitionChoice) (n : Nat) (bs : BitVec 16) (pred : BitVec 6) :
    (s.withPartition c n bs pred).rpPred = pred := rfl
@[simp] theorem State.withPartition_rpValid (c : PartitionChoice) (n : Nat) (bs : BitVec 16) (pred : BitVec 6) :
    (s.withPartition c n bs pred).rpValid = true := rfl
@[simp] theorem State.withPartition_ktab (c : PartitionChoice) (n : Nat) (bs : BitVec 16) (pred : BitVec 6) :
    (s.withPartition c n bs pred).ktab = s.ktab.writeLow (c.params.map (BitVec.ofNat 5)) := rfl
@[simp] theorem State.withPartition_seqStrat (c : PartitionChoice) (n : Nat) (bs : BitVec 16) (pred : BitVec 6) :
    (s.withPartition c n bs pred).seqStrat = s.seqStrat := rfl
@[simp] theorem State.withPartition_seqNext (c : PartitionChoice) (n : Nat) (bs : BitVec 16) (pred : BitVec 6) :
    (s.withPartition c n bs pred).seqNext = s.seqNext := rfl
@[simp] theorem State.withPartition_crc8Last (c : PartitionChoice) (n : Nat) (bs : BitVec 16) (pred : BitVec 6) :
    (s.withPartition c n bs pred).crc8Last = s.crc8Last := rfl
@[simp] theorem State.withPartition_hdrLen (c : PartitionChoice) (n : Nat) (bs : BitVec 16) (pred : BitVec 6) :
    (s.withPartition c n bs pred).hdrLen = s.hdrLen := rfl
@[simp] theorem State.withPartition_fault (c : PartitionChoice) (n : Nat) (bs : BitVec 16) (pred : BitVec 6) :
    (s.withPartition c n bs pred).fault = s.fault := rfl
@[simp] theorem State.withPartition_inputs (c : PartitionChoice) (n : Nat) (bs : BitVec 16) (pred : BitVec 6) :
    (s.withPartition c n bs pred).inputs = s.inputs := rfl
@[simp] theorem State.withPartition_responses (c : PartitionChoice) (n : Nat) (bs : BitVec 16) (pred : BitVec 6) :
    (s.withPartition c n bs pred).responses = s.responses := rfl

/-! ### `State.withHeader` -/

@[simp] theorem State.withHeader_config (h : List Byte) (strat : BitVec 1) (bs : BitVec 16) (num : BitVec 36) :
    (s.withHeader h strat bs num).config = s.config := rfl
@[simp] theorem State.withHeader_out (h : List Byte) (strat : BitVec 1) (bs : BitVec 16) (num : BitVec 36) :
    (s.withHeader h strat bs num).out = s.out := rfl
@[simp] theorem State.withHeader_wstate (h : List Byte) (strat : BitVec 1) (bs : BitVec 16) (num : BitVec 36) :
    (s.withHeader h strat bs num).wstate = s.wstate := rfl
@[simp] theorem State.withHeader_res (h : List Byte) (strat : BitVec 1) (bs : BitVec 16) (num : BitVec 36) :
    (s.withHeader h strat bs num).res = s.res := rfl
@[simp] theorem State.withHeader_rcK (h : List Byte) (strat : BitVec 1) (bs : BitVec 16) (num : BitVec 36) :
    (s.withHeader h strat bs num).rcK = s.rcK := rfl
@[simp] theorem State.withHeader_rcCost (h : List Byte) (strat : BitVec 1) (bs : BitVec 16) (num : BitVec 36) :
    (s.withHeader h strat bs num).rcCost = s.rcCost := rfl
@[simp] theorem State.withHeader_rpOrder (h : List Byte) (strat : BitVec 1) (bs : BitVec 16) (num : BitVec 36) :
    (s.withHeader h strat bs num).rpOrder = s.rpOrder := rfl
@[simp] theorem State.withHeader_rpMethod (h : List Byte) (strat : BitVec 1) (bs : BitVec 16) (num : BitVec 36) :
    (s.withHeader h strat bs num).rpMethod = s.rpMethod := rfl
@[simp] theorem State.withHeader_rpCost (h : List Byte) (strat : BitVec 1) (bs : BitVec 16) (num : BitVec 36) :
    (s.withHeader h strat bs num).rpCost = s.rpCost := rfl
@[simp] theorem State.withHeader_rpBlockSize (h : List Byte) (strat : BitVec 1) (bs : BitVec 16) (num : BitVec 36) :
    (s.withHeader h strat bs num).rpBlockSize = s.rpBlockSize := rfl
@[simp] theorem State.withHeader_rpPred (h : List Byte) (strat : BitVec 1) (bs : BitVec 16) (num : BitVec 36) :
    (s.withHeader h strat bs num).rpPred = s.rpPred := rfl
@[simp] theorem State.withHeader_rpValid (h : List Byte) (strat : BitVec 1) (bs : BitVec 16) (num : BitVec 36) :
    (s.withHeader h strat bs num).rpValid = s.rpValid := rfl
@[simp] theorem State.withHeader_ktab (h : List Byte) (strat : BitVec 1) (bs : BitVec 16) (num : BitVec 36) :
    (s.withHeader h strat bs num).ktab = s.ktab := rfl
@[simp] theorem State.withHeader_seqStrat (h : List Byte) (strat : BitVec 1) (bs : BitVec 16) (num : BitVec 36) :
    (s.withHeader h strat bs num).seqStrat = BitVec.ofNat 2 (strat.toNat + 1) := rfl
@[simp] theorem State.withHeader_seqNext (h : List Byte) (strat : BitVec 1) (bs : BitVec 16) (num : BitVec 36) :
    (s.withHeader h strat bs num).seqNext = BitVec.ofNat 37 (num.toNat + if strat = 0 then 1 else bs.toNat) := rfl
@[simp] theorem State.withHeader_crc8Last (h : List Byte) (strat : BitVec 1) (bs : BitVec 16) (num : BitVec 36) :
    (s.withHeader h strat bs num).crc8Last = h.getLastD 0 := rfl
@[simp] theorem State.withHeader_hdrLen (h : List Byte) (strat : BitVec 1) (bs : BitVec 16) (num : BitVec 36) :
    (s.withHeader h strat bs num).hdrLen = BitVec.ofNat 5 h.length := rfl
@[simp] theorem State.withHeader_fault (h : List Byte) (strat : BitVec 1) (bs : BitVec 16) (num : BitVec 36) :
    (s.withHeader h strat bs num).fault = s.fault := rfl
@[simp] theorem State.withHeader_inputs (h : List Byte) (strat : BitVec 1) (bs : BitVec 16) (num : BitVec 36) :
    (s.withHeader h strat bs num).inputs = s.inputs := rfl
@[simp] theorem State.withHeader_responses (h : List Byte) (strat : BitVec 1) (bs : BitVec 16) (num : BitVec 36) :
    (s.withHeader h strat bs num).responses = s.responses := rfl

/-! ### `State.present` -/

@[simp] theorem State.present_config (t : Transaction) : (s.present t).config = s.config := rfl
@[simp] theorem State.present_out (t : Transaction) : (s.present t).out = s.out := rfl
@[simp] theorem State.present_wstate (t : Transaction) : (s.present t).wstate = s.wstate := rfl
@[simp] theorem State.present_res (t : Transaction) : (s.present t).res = s.res := rfl
@[simp] theorem State.present_rcK (t : Transaction) : (s.present t).rcK = s.rcK := rfl
@[simp] theorem State.present_rcCost (t : Transaction) : (s.present t).rcCost = s.rcCost := rfl
@[simp] theorem State.present_rpOrder (t : Transaction) : (s.present t).rpOrder = s.rpOrder := rfl
@[simp] theorem State.present_rpMethod (t : Transaction) : (s.present t).rpMethod = s.rpMethod := rfl
@[simp] theorem State.present_rpCost (t : Transaction) : (s.present t).rpCost = s.rpCost := rfl
@[simp] theorem State.present_rpBlockSize (t : Transaction) : (s.present t).rpBlockSize = s.rpBlockSize := rfl
@[simp] theorem State.present_rpPred (t : Transaction) : (s.present t).rpPred = s.rpPred := rfl
@[simp] theorem State.present_rpValid (t : Transaction) : (s.present t).rpValid = s.rpValid := rfl
@[simp] theorem State.present_ktab (t : Transaction) : (s.present t).ktab = s.ktab := rfl
@[simp] theorem State.present_seqStrat (t : Transaction) : (s.present t).seqStrat = s.seqStrat := rfl
@[simp] theorem State.present_seqNext (t : Transaction) : (s.present t).seqNext = s.seqNext := rfl
@[simp] theorem State.present_crc8Last (t : Transaction) : (s.present t).crc8Last = s.crc8Last := rfl
@[simp] theorem State.present_hdrLen (t : Transaction) : (s.present t).hdrLen = s.hdrLen := rfl
@[simp] theorem State.present_fault (t : Transaction) : (s.present t).fault = s.fault := rfl
@[simp] theorem State.present_inputs (t : Transaction) : (s.present t).inputs = .command t :: s.inputs := rfl
@[simp] theorem State.present_responses (t : Transaction) : (s.present t).responses = s.responses := rfl

/-! ### `State.afterReset` -/

@[simp] theorem State.afterReset_config : (s.afterReset).config = s.config := rfl
@[simp] theorem State.afterReset_out : (s.afterReset).out = State.reset.out := rfl
@[simp] theorem State.afterReset_wstate : (s.afterReset).wstate = State.reset.wstate := rfl
@[simp] theorem State.afterReset_res : (s.afterReset).res = State.reset.res := rfl
@[simp] theorem State.afterReset_rcK : (s.afterReset).rcK = State.reset.rcK := rfl
@[simp] theorem State.afterReset_rcCost : (s.afterReset).rcCost = State.reset.rcCost := rfl
@[simp] theorem State.afterReset_rpOrder : (s.afterReset).rpOrder = State.reset.rpOrder := rfl
@[simp] theorem State.afterReset_rpMethod : (s.afterReset).rpMethod = State.reset.rpMethod := rfl
@[simp] theorem State.afterReset_rpCost : (s.afterReset).rpCost = State.reset.rpCost := rfl
@[simp] theorem State.afterReset_rpBlockSize : (s.afterReset).rpBlockSize = State.reset.rpBlockSize := rfl
@[simp] theorem State.afterReset_rpPred : (s.afterReset).rpPred = State.reset.rpPred := rfl
@[simp] theorem State.afterReset_rpValid : (s.afterReset).rpValid = State.reset.rpValid := rfl
@[simp] theorem State.afterReset_ktab : (s.afterReset).ktab = State.reset.ktab := rfl
@[simp] theorem State.afterReset_seqStrat : (s.afterReset).seqStrat = State.reset.seqStrat := rfl
@[simp] theorem State.afterReset_seqNext : (s.afterReset).seqNext = State.reset.seqNext := rfl
@[simp] theorem State.afterReset_crc8Last : (s.afterReset).crc8Last = State.reset.crc8Last := rfl
@[simp] theorem State.afterReset_hdrLen : (s.afterReset).hdrLen = State.reset.hdrLen := rfl
@[simp] theorem State.afterReset_fault : (s.afterReset).fault = State.reset.fault := rfl
@[simp] theorem State.afterReset_inputs : (s.afterReset).inputs = s.inputs := rfl
@[simp] theorem State.afterReset_responses : (s.afterReset).responses = s.responses := rfl

/-! ### The views of `S` and KTAB, under the updates that touch neither -/

@[simp] theorem State.record_bitLen (v : BitVec 64) : (s.record v).bitLen = s.bitLen := rfl
@[simp] theorem State.record_outLen (v : BitVec 64) : (s.record v).outLen = s.outLen := rfl
@[simp] theorem State.record_pbits (v : BitVec 64) : (s.record v).pbits = s.pbits := rfl
@[simp] theorem State.record_pacc (v : BitVec 64) : (s.record v).pacc = s.pacc := rfl
@[simp] theorem State.record_outByte (v : BitVec 64) (a : Nat) : (s.record v).outByte a = s.outByte a := rfl
@[simp] theorem State.record_ktabEntry (v : BitVec 64) (j : Nat) : (s.record v).ktabEntry j = s.ktabEntry j := rfl

@[simp] theorem State.answered_bitLen (v : BitVec 64) : (s.answered v).bitLen = s.bitLen := rfl
@[simp] theorem State.answered_outLen (v : BitVec 64) : (s.answered v).outLen = s.outLen := rfl
@[simp] theorem State.answered_pbits (v : BitVec 64) : (s.answered v).pbits = s.pbits := rfl
@[simp] theorem State.answered_pacc (v : BitVec 64) : (s.answered v).pacc = s.pacc := rfl
@[simp] theorem State.answered_outByte (v : BitVec 64) (a : Nat) : (s.answered v).outByte a = s.outByte a := rfl
@[simp] theorem State.answered_ktabEntry (v : BitVec 64) (j : Nat) : (s.answered v).ktabEntry j = s.ktabEntry j := rfl

@[simp] theorem State.faulted_bitLen (code : BitVec 4) : (s.faulted code).bitLen = s.bitLen := rfl
@[simp] theorem State.faulted_outLen (code : BitVec 4) : (s.faulted code).outLen = s.outLen := rfl
@[simp] theorem State.faulted_pbits (code : BitVec 4) : (s.faulted code).pbits = s.pbits := rfl
@[simp] theorem State.faulted_pacc (code : BitVec 4) : (s.faulted code).pacc = s.pacc := rfl
@[simp] theorem State.faulted_outByte (code : BitVec 4) (a : Nat) : (s.faulted code).outByte a = s.outByte a := rfl
@[simp] theorem State.faulted_ktabEntry (code : BitVec 4) (j : Nat) : (s.faulted code).ktabEntry j = s.ktabEntry j := rfl

end Sys2Proof.Machine
end

