-- ==== Sys2Proof/Laws/Ops.lean ====
section
/-! SUPPORT. The shared operations: for each, what it answers, and (the `_cases` lemmas) everything it can do. -/

namespace Sys2Proof.Machine

variable {s t : State}

theorem FaultCode.code_ne_zero (c : FaultCode) : c.code ≠ 0 := by cases c <;> decide

theorem FaultCode.code_bounds {c : FaultCode} (h : c ≠ .crc) : 1 ≤ c.code.toNat ∧ c.code.toNat ≤ 13 := by
  cases c <;> first | contradiction | decide

theorem respond_eq (v : BitVec 64) (s : State) : respond v s = .next (s.answered v) := rfl

theorem raiseFault_of_clear (c : FaultCode) (h : s.fault = 0) : raiseFault c s = .next (s.faulted c.code) := by
  simp only [raiseFault, State.latchFault, State.record, State.faulted, if_pos h]

/-- A fault while FAULT is nonzero keeps the first code and changes nothing (60_exceptions.md R221, R229). -/
theorem raiseFault_of_faulted (c : FaultCode) (h : s.fault ≠ 0) : raiseFault c s = .next (s.answered 0) := by
  simp only [raiseFault, State.latchFault, State.record, State.answered, if_neg h]

theorem raiseFault_cases (c : FaultCode) (h : raiseFault c s = .next t) :
    (s.fault = 0 ∧ t = s.faulted c.code) ∨ (s.fault ≠ 0 ∧ t = s.answered 0) := by
  by_cases hs : s.fault = 0
  · rw [raiseFault_of_clear c hs] at h; cases h; exact .inl ⟨hs, rfl⟩
  · rw [raiseFault_of_faulted c hs] at h; cases h; exact .inr ⟨hs, rfl⟩

theorem gate_of_clear (body : Unit → Result) (h : s.fault = 0) : gate s body = body () := if_pos h

theorem gate_of_faulted (body : Unit → Result) (h : s.fault ≠ 0) : gate s body = .next (s.answered 0) := by
  simp only [gate, if_neg h, respond_eq]

theorem gate_cases {body : Unit → Result} {r : Result} (h : gate s body = r) :
    (s.fault ≠ 0 ∧ r = .next (s.answered 0)) ∨ (s.fault = 0 ∧ body () = r) := by
  by_cases hs : s.fault = 0
  · exact .inr ⟨hs, by rwa [gate_of_clear body hs] at h⟩
  · exact .inl ⟨hs, by rw [gate_of_faulted body hs] at h; exact h.symm⟩

@[simp] theorem checked_nil (s : State) (body : Unit → Result) : checked [] s body = body () := rfl

@[simp] theorem checked_cons (holds : Bool) (c : FaultCode) (rest : List Check) (s : State) (body : Unit → Result) :
    checked ((holds, c) :: rest) s body = if holds then checked rest s body else raiseFault c s := by
  cases holds <;> rfl

/-- When every check holds the rest of the command runs. -/
theorem checked_of_pass {checks : List Check} {body : Unit → Result} (h : ∀ chk ∈ checks, chk.1 = true) :
    checked checks s body = body () := by
  induction checks with
  | nil => rfl
  | cons chk rest ih =>
    obtain ⟨holds, c⟩ := chk
    have hc : holds = true := h (holds, c) List.mem_cons_self
    rw [checked_cons, if_pos hc, ih fun d hd => h d (List.mem_cons_of_mem _ hd)]

theorem checked_cases {checks : List Check} {body : Unit → Result} {r : Result} (h : checked checks s body = r) :
    (∃ c ∈ checks.map Prod.snd, r = raiseFault c s) ∨ ((∀ chk ∈ checks, chk.1 = true) ∧ body () = r) := by
  induction checks with
  | nil => exact .inr ⟨by simp, h⟩
  | cons chk rest ih =>
    obtain ⟨holds, c⟩ := chk
    rw [checked_cons] at h
    cases holds with
    | false => exact .inl ⟨c, by simp, h.symm⟩
    | true =>
      rcases ih h with ⟨c', hc', hr⟩ | ⟨ha, hb⟩
      · exact .inl ⟨c', by simp [hc'], hr⟩
      · exact .inr ⟨by simpa using ha, hb⟩

theorem append_of_fits {n : Nat} {bits : Unit → Bits} {done : State → Result} (h : ¬ s.exceedsCapacity n) :
    append n bits s done = done { s with out := s.out ++ bits () } := by simp [append, h]

theorem append_of_full {n : Nat} {bits : Unit → Bits} {done : State → Result} (h : s.exceedsCapacity n) :
    append n bits s done = raiseFault .capacity s := by simp [append, h]

theorem append_cases {n : Nat} {bits : Unit → Bits} {done : State → Result} {r : Result}
    (h : append n bits s done = r) :
    r = raiseFault .capacity s ∨ (¬ s.exceedsCapacity n ∧ done { s with out := s.out ++ bits () } = r) := by
  by_cases hc : s.exceedsCapacity n
  · exact .inl (by rw [append_of_full hc] at h; exact h.symm)
  · exact .inr ⟨hc, by rwa [append_of_fits hc] at h⟩

theorem withResiduals_of_some {start count : Nat} {body : List Int → Result} {words : List (BitVec 32)}
    (h : s.res.readRange start count = some words) : withResiduals start count s body = body (words.map sext32) := by
  simp [withResiduals, h]

theorem withResiduals_cases {start count : Nat} {body : List Int → Result} {r : Result}
    (h : withResiduals start count s body = r) :
    (s.res.readRange start count = none ∧ r = .fault .uninitRes) ∨
      ∃ words, s.res.readRange start count = some words ∧ body (words.map sext32) = r := by
  unfold withResiduals at h
  split at h
  · rename_i words hw; exact .inr ⟨words, hw, h⟩
  · rename_i hw; exact .inl ⟨hw, h.symm⟩

/-- Within the capacity a bit length fits `BITLEN`'s 35 bits (10_state.md R22). -/
theorem bitLen_fits_of_fits {n : Nat} (h : ¬ s.exceedsCapacity n) : s.bitLen + n < 2 ^ 35 := by
  have := s.config.outCap.isLt
  unfold State.exceedsCapacity at h
  omega

/-- A register narrower than 64 bits that its value fits shows the value. -/
theorem zext64_ofNat {w n : Nat} (h : n < 2 ^ w) : zext64 (BitVec.ofNat w n) = BitVec.ofNat 64 n := by
  apply BitVec.eq_of_toNat_eq
  simp [zext64, Nat.mod_eq_of_lt h]

/-- After an append that fits, `respond(BITLEN)` answers the exact new length. -/
theorem respondBitLen_after {bits : Bits} (h : ¬ s.exceedsCapacity bits.length) :
    respondBitLen { s with out := s.out ++ bits } =
      .next (({ s with out := s.out ++ bits } : State).answered (BitVec.ofNat 64 (s.bitLen + bits.length))) := by
  have hb := bitLen_fits_of_fits h
  rw [respondBitLen, respond_eq]
  have e : State.bitLen { s with out := s.out ++ bits } = s.bitLen + bits.length := by simp [State.bitLen]
  rw [e, zext64_ofNat hb]

end Sys2Proof.Machine
end

