-- ==== Sys2Proof/Laws/Rice.lean ====
section
/-! SUPPORT. The RiceCoder's functions: folding, code lengths, the exhaustive searches, and the partition geometry. -/

namespace Sys2Proof.Machine

/-! ### Folding -/

theorem unfold_fold (r : Int) : unfold (fold r) = r := by
  unfold fold unfold
  split <;> split <;> omega

theorem fold_unfold (u : Nat) : fold (unfold u) = u := by
  unfold fold unfold
  split <;> split <;> omega

/-- A folded 32-bit residual is below `2^32` (41_rice.md R131). -/
theorem fold_sext32_lt (v : BitVec 32) : fold (sext32 v) < 2 ^ 32 := by
  have h1 := BitVec.toInt_lt (x := v)
  have h2 := BitVec.le_toInt (x := v)
  unfold fold sext32
  split <;> omega

/-! ### Lengths -/

@[simp] theorem length_riceBits (u k : Nat) : (riceBits u k).length = (u >>> k) + 1 + k := by
  simp [riceBits]; omega

/-- The cost is the exact length of the code (41_rice.md R133). -/
@[simp] theorem length_riceCode (us : List Nat) (k : Nat) : (riceCode us k).length = riceCost us k := by
  simp [riceCode, riceCost, List.length_flatMap]

@[simp] theorem length_partitionBits (m k : Nat) (us : List Nat) :
    (partitionBits m k us).length = methodBits m + riceCost us k := by
  simp [partitionBits]

/-- The section cost is the exact length of the section (41_rice.md R139, R144). -/
@[simp] theorem length_sectionBits (m p : Nat) (kt : Nat → Nat) (bs pred : Nat) (us : List Nat) :
    (sectionBits m p kt bs pred us).length = sectionCost m p kt bs pred us := by
  simp only [sectionBits, sectionCost, List.length_append, length_bitsOf, List.length_flatMap, length_partitionBits]

/-! ### Searches -/

/-- What `firstLeast` finds: a candidate of least cost, with every earlier one dearer. -/
theorem firstLeast_spec {α : Type} (best : α × Nat) (cs : List (α × Nat)) :
    ∃ l r, best :: cs = l ++ firstLeast best cs :: r ∧ (∀ c ∈ l, (firstLeast best cs).2 < c.2) ∧
      ∀ c ∈ r, (firstLeast best cs).2 ≤ c.2 := by
  induction cs generalizing best with
  | nil => exact ⟨[], [], rfl, by simp, by simp⟩
  | cons c cs ih =>
    unfold firstLeast
    split
    · rename_i hlt
      obtain ⟨l, r, he, hl, hr⟩ := ih c
      refine ⟨best :: l, r, by rw [List.cons_append, ← he], fun d hd => ?_, hr⟩
      rcases List.mem_cons.mp hd with h | h
      · subst h
        have hc : c ∈ l ++ firstLeast c cs :: r := he ▸ List.mem_cons_self
        rcases List.mem_append.mp hc with h | h
        · exact lt_trans (hl _ h) hlt
        · rcases List.mem_cons.mp h with h | h
          · rw [← h]; exact hlt
          · exact lt_of_le_of_lt (hr _ h) hlt
      · exact hl _ h
    · rename_i hge
      obtain ⟨l, r, he, hl, hr⟩ := ih best
      have hle : (firstLeast best cs).2 ≤ best.2 := by
        have hb : best ∈ l ++ firstLeast best cs :: r := he ▸ List.mem_cons_self
        rcases List.mem_append.mp hb with h | h
        · exact le_of_lt (hl _ h)
        · rcases List.mem_cons.mp h with h | h
          · rw [← h]
          · exact hr _ h
      match l, he, hl with
      | [], he, hl =>
        obtain ⟨h1, h2⟩ := List.cons.inj he
        refine ⟨[], c :: r, by rw [← h1, ← h2]; rfl, by simp, fun d hd => ?_⟩
        rcases List.mem_cons.mp hd with h | h
        · subst h; omega
        · exact hr _ h
      | b :: l', he, hl =>
        obtain ⟨h1, h2⟩ := List.cons.inj he
        subst h1
        refine ⟨best :: c :: l', r, congrArg (fun x => best :: c :: x) h2, fun d hd => ?_, hr⟩
        rcases List.mem_cons.mp hd with h | h
        · exact hl _ (h ▸ List.mem_cons_self)
        · rcases List.mem_cons.mp h with h | h
          · subst h
            have := hl best List.mem_cons_self
            omega
          · exact hl _ (List.mem_cons_of_mem _ h)

/-- The list `bestParameter` searches is `(k, C(U, k))` for `k` in `0..kmax`. -/
theorem bestParameter_list (kmax : Nat) (us : List Nat) :
    ((0, riceCost us 0) : Nat × Nat) :: ((List.range' 1 kmax).map fun k => (k, riceCost us k)) =
      (List.range' 0 (kmax + 1)).map fun k => (k, riceCost us k) := by
  rw [List.range'_succ]; simp

/-- `bestParameter` finds the least `k` in `0..kmax` of least cost, and that cost (41_rice.md R134). -/
theorem bestParameter_spec (kmax : Nat) (us : List Nat) :
    (bestParameter kmax us).1 ≤ kmax ∧ (bestParameter kmax us).2 = riceCost us (bestParameter kmax us).1 ∧
      (∀ k ≤ kmax, riceCost us (bestParameter kmax us).1 ≤ riceCost us k) ∧
      ∀ k < (bestParameter kmax us).1, riceCost us (bestParameter kmax us).1 < riceCost us k := by
  obtain ⟨l, r, he, hl, hr⟩ := firstLeast_spec ((0, riceCost us 0) : Nat × Nat)
    ((List.range' 1 kmax).map fun k => (k, riceCost us k))
  change _ = l ++ bestParameter kmax us :: r at he
  change ∀ c ∈ l, (bestParameter kmax us).2 < c.2 at hl
  change ∀ c ∈ r, (bestParameter kmax us).2 ≤ c.2 at hr
  rw [bestParameter_list] at he
  generalize bestParameter kmax us = b at he hl hr ⊢
  have hmem : b ∈ (List.range' 0 (kmax + 1)).map fun k => (k, riceCost us k) := by rw [he]; simp
  obtain ⟨k0, hk0, hb⟩ := List.mem_map.mp hmem
  subst hb
  have hk0' : k0 ≤ kmax := by simp at hk0; omega
  have hle : ∀ k ≤ kmax, riceCost us k0 ≤ riceCost us k := by
    intro k hk
    have hkm : (k, riceCost us k) ∈ l ++ (k0, riceCost us k0) :: r := by
      rw [← he]; exact List.mem_map.mpr ⟨k, by simp; omega, rfl⟩
    rcases List.mem_append.mp hkm with h | h
    · exact le_of_lt (hl _ h)
    · rcases List.mem_cons.mp h with h | h
      · simp only [Prod.mk.injEq] at h; rw [h.1]
      · exact hr _ h
  refine ⟨hk0', rfl, hle, fun k hk => ?_⟩
  have hsorted : ((List.range' 0 (kmax + 1)).map fun k => (k, riceCost us k)).Pairwise fun a b => a.1 < b.1 := by
    rw [List.pairwise_map]; exact List.pairwise_lt_range'
  rw [he] at hsorted
  have hkm : (k, riceCost us k) ∈ l ++ (k0, riceCost us k0) :: r := by
    rw [← he]; exact List.mem_map.mpr ⟨k, by simp; omega, rfl⟩
  rcases List.mem_append.mp hkm with h | h
  · exact hl _ h
  · rcases List.mem_cons.mp h with h | h
    · simp only [Prod.mk.injEq] at h; omega
    · have := (List.pairwise_cons.mp (List.pairwise_append.mp hsorted).2.1).1 _ h
      simp only at this; omega

theorem mem_legalOrders {bs pred pmin pmax p : Nat} :
    p ∈ legalOrders bs pred pmin pmax ↔ pmin ≤ p ∧ p ≤ pmax ∧ legalOrder bs pred p := by
  simp only [legalOrders, List.mem_filter, List.mem_range'_1, decide_eq_true_eq]
  constructor
  · rintro ⟨⟨h1, h2⟩, h3⟩; exact ⟨h1, by omega, h3⟩
  · rintro ⟨h1, h2, h3⟩; exact ⟨⟨h1, by omega⟩, h3⟩

theorem legalOrders_sorted (bs pred pmin pmax : Nat) : (legalOrders bs pred pmin pmax).Pairwise (· < ·) :=
  (List.pairwise_lt_range' (s := pmin) (n := pmax + 1 - pmin)).filter _

/-! ### Costs -/

/-- `C(U, 0)` of at most `n` values below `2^32` is at most `n * 2^32` (41_rice.md R141). -/
theorem riceCost_zero_le (us : List Nat) (h : ∀ u ∈ us, u < 2 ^ 32) : riceCost us 0 ≤ us.length * 2 ^ 32 := by
  induction us with
  | nil => simp [riceCost]
  | cons u us ih =>
    have hu := h u List.mem_cons_self
    have hi := ih fun v hv => h v (List.mem_cons_of_mem _ hv)
    simp only [riceCost, List.map_cons, List.sum_cons, List.length_cons, Nat.shiftRight_zero] at hi ⊢
    omega

/-! ### The partition choice (41_rice.md R139, R140) -/

/-- The parameter of partition `j` in a candidate is the best for its slice. -/
theorem candidate_params (bs pred : Nat) (us : List Nat) (m p j : Nat) (hj : j < 2 ^ p) :
    (candidate bs pred us m p).1.params[j]? =
      some (bestParameter (methodKmax m) (partitionSlice bs pred p j us)).1 := by
  simp [candidate, hj]

@[simp] theorem length_candidate_params (bs pred : Nat) (us : List Nat) (m p : Nat) :
    (candidate bs pred us m p).1.params.length = 2 ^ p := by simp [candidate]

/-- A candidate's cost is the exact length of its section. -/
theorem candidate_cost (bs pred : Nat) (us : List Nat) (m p : Nat) (kt : Nat → Nat)
    (hk : ∀ j < 2 ^ p, kt j = (bestParameter (methodKmax m) (partitionSlice bs pred p j us)).1) :
    (candidate bs pred us m p).2 = sectionCost m p kt bs pred us := by
  simp only [candidate, sectionCost, List.map_map]
  congr 2
  refine List.map_congr_left fun j hj => ?_
  simp [(bestParameter_spec _ _).2.1, hk j (List.mem_range.mp hj)]

/-- No parameters within the method's range make a shorter section than the candidate's. -/
theorem candidate_cost_le (bs pred : Nat) (us : List Nat) (m p : Nat) (kt : Nat → Nat)
    (hk : ∀ j < 2 ^ p, kt j ≤ methodKmax m) : (candidate bs pred us m p).2 ≤ sectionCost m p kt bs pred us := by
  simp only [candidate, sectionCost, List.map_map]
  refine Nat.add_le_add_left (List.sum_le_sum fun j hj => ?_) 6
  simp only [Function.comp_apply, (bestParameter_spec _ _).2.1]
  exact Nat.add_le_add_left ((bestParameter_spec _ _).2.2.1 _ (hk j (List.mem_range.mp hj))) _

/-- What `choosePartition` finds: the candidate of one `(m, p)`, no dearer than any other, and strictly cheaper than
every one before it in the order methods first, then orders. -/
theorem choosePartition_spec (bs pred : Nat) (us : List Nat) (p : Nat) (ps : List Nat)
    (hsorted : (p :: ps).Pairwise (· < ·)) :
    ∃ m q, m ≤ 1 ∧ q ∈ p :: ps ∧ choosePartition bs pred us p ps = candidate bs pred us m q ∧
      ∀ m' ≤ 1, ∀ q' ∈ p :: ps, (candidate bs pred us m q).2 ≤ (candidate bs pred us m' q').2 ∧
        (m' < m ∨ m' = m ∧ q' < q → (candidate bs pred us m q).2 < (candidate bs pred us m' q').2) := by
  obtain ⟨l, r, he, hl, hr⟩ := firstLeast_spec (candidate bs pred us 0 p)
    (ps.map (candidate bs pred us 0) ++ (p :: ps).map (candidate bs pred us 1))
  change _ = l ++ choosePartition bs pred us p ps :: r at he
  change ∀ c ∈ l, (choosePartition bs pred us p ps).2 < c.2 at hl
  change ∀ c ∈ r, (choosePartition bs pred us p ps).2 ≤ c.2 at hr
  rw [← List.cons_append, ← List.map_cons] at he
  generalize choosePartition bs pred us p ps = best at he hl hr ⊢
  -- The searched list is the candidates of the pairs, in lexicographic order.
  let pairs := (p :: ps).map (fun q => (0, q)) ++ (p :: ps).map fun q => (1, q)
  have hpairs : pairs.map (fun mq : Nat × Nat => candidate bs pred us mq.1 mq.2) = l ++ best :: r := by
    rw [← he]; simp [pairs, Function.comp_def]
  have hlex : pairs.Pairwise fun a b => a.1 < b.1 ∨ a.1 = b.1 ∧ a.2 < b.2 := by
    refine List.pairwise_append.mpr ⟨?_, ?_, ?_⟩
    · rw [List.pairwise_map]; exact hsorted.imp fun h => .inr ⟨rfl, h⟩
    · rw [List.pairwise_map]; exact hsorted.imp fun h => .inr ⟨rfl, h⟩
    · intro a ha b hb
      obtain ⟨q, -, rfl⟩ := List.mem_map.mp ha
      obtain ⟨q', -, rfl⟩ := List.mem_map.mp hb
      exact .inl Nat.one_pos
  have hmem : ∀ m' ≤ 1, ∀ q' ∈ p :: ps, (m', q') ∈ pairs := by
    intro m' hm' q' hq'
    rcases Nat.le_one_iff_eq_zero_or_eq_one.mp hm' with rfl | rfl
    · exact List.mem_append.mpr (.inl (List.mem_map.mpr ⟨q', hq', rfl⟩))
    · exact List.mem_append.mpr (.inr (List.mem_map.mpr ⟨q', hq', rfl⟩))
  obtain ⟨pl, prest, hsplit, hpl, hprest⟩ := List.map_eq_append_iff.mp hpairs
  obtain ⟨⟨m, q⟩, pr, rfl, hbest, hpr⟩ := List.map_eq_cons_iff.mp hprest
  subst hbest
  have hmq : (m, q) ∈ pairs := by rw [hsplit]; simp
  have hm : m ≤ 1 ∧ q ∈ p :: ps := by
    rcases List.mem_append.mp hmq with h | h <;> obtain ⟨q', hq', he'⟩ := List.mem_map.mp h <;> cases he' <;>
      exact ⟨by omega, hq'⟩
  refine ⟨m, q, hm.1, hm.2, rfl, fun m' hm' q' hq' => ?_⟩
  have hin := hmem m' hm' q' hq'
  rw [hsplit] at hin hlex
  have hafter := (List.pairwise_cons.mp (List.pairwise_append.mp hlex).2.1).1
  rcases List.mem_append.mp hin with h | h
  · have hlt := hl _ (hpl ▸ List.mem_map.mpr ⟨(m', q'), h, rfl⟩)
    exact ⟨le_of_lt hlt, fun _ => hlt⟩
  · rcases List.mem_cons.mp h with h | h
    · simp only [Prod.mk.injEq] at h
      obtain ⟨rfl, rfl⟩ := h
      exact ⟨le_rfl, fun h => by omega⟩
    · have hle := hr _ (hpr ▸ List.mem_map.mpr ⟨(m', q'), h, rfl⟩)
      have hlate := hafter _ h
      exact ⟨hle, fun h' => by simp only at hlate; omega⟩

/-! ### Partition geometry (41_rice.md R136) -/

theorem partitionLo_succ (bs pred p j : Nat) : partitionLo bs pred p (j + 1) = partitionHi bs pred p j := by
  simp [partitionLo, partitionHi]

theorem partitionHi_last {bs pred p : Nat} (h : legalOrder bs pred p) : partitionHi bs pred p (2 ^ p - 1) = bs - pred := by
  have hp : 0 < 2 ^ p := by positivity
  have hd : 2 ^ p * (bs / 2 ^ p) = bs := Nat.mul_div_cancel' (Nat.dvd_of_mod_eq_zero h.2.1)
  unfold partitionHi
  rw [Nat.shiftRight_eq_div_pow, show 2 ^ p - 1 + 1 = 2 ^ p by omega, hd]

theorem partitionLo_lt_hi {bs pred p : Nat} (h : pred < bs >>> p) (j : Nat) :
    partitionLo bs pred p j < partitionHi bs pred p j := by
  unfold partitionLo partitionHi
  have e : (j + 1) * (bs >>> p) = j * (bs >>> p) + bs >>> p := by ring
  split
  · subst_vars; omega
  · omega

theorem partitionHi_mono {bs pred p : Nat} {i j : Nat} (h : i ≤ j) :
    partitionHi bs pred p i ≤ partitionHi bs pred p j := by
  unfold partitionHi
  exact Nat.sub_le_sub_right (Nat.mul_le_mul_right _ (by omega)) _

/-- The first `n` partitions, in order, are the residuals up to `hi_{n-1}`: the partitions tile the block. -/
theorem partitions_tile {α : Type} {bs pred p : Nat} (h : pred < bs >>> p) (us : List α) (n : Nat) :
    (List.range n).flatMap (fun j => partitionSlice bs pred p j us) = us.take (partitionLo bs pred p n) := by
  induction n with
  | zero => simp [partitionLo]
  | succ n ih =>
    have hl := partitionLo_lt_hi h n
    rw [List.range_succ, List.flatMap_append, ih, List.flatMap_singleton, partitionLo_succ, partitionSlice]
    rw [show partitionHi bs pred p n = partitionLo bs pred p n + (partitionHi bs pred p n - partitionLo bs pred p n) by
      omega, List.take_add]
    simp

theorem length_partitionSlice {α : Type} {bs pred p j : Nat} (h : legalOrder bs pred p) (hj : j < 2 ^ p) {us : List α}
    (hl : us.length = bs - pred) :
    (partitionSlice bs pred p j us).length = partitionHi bs pred p j - partitionLo bs pred p j := by
  have h1 := partitionHi_last h
  have h2 : partitionHi bs pred p j ≤ partitionHi bs pred p (2 ^ p - 1) := partitionHi_mono (by omega)
  simp only [partitionSlice, List.length_take, List.length_drop, hl]
  omega

/-! ### Sums and bounds -/

theorem riceCost_append (a b : List Nat) (k : Nat) : riceCost (a ++ b) k = riceCost a k + riceCost b k := by
  simp [riceCost]

theorem riceCost_flatMap (l : List Nat) (f : Nat → List Nat) (k : Nat) :
    riceCost (l.flatMap f) k = (l.map fun j => riceCost (f j) k).sum := by
  induction l with
  | nil => rfl
  | cons a l ih => simp [riceCost_append, ih]

theorem sum_map_const_add (l : List Nat) (c : Nat) (f : Nat → Nat) :
    (l.map fun j => c + f j).sum = l.length * c + (l.map f).sum := by
  induction l with
  | nil => simp
  | cons a l ih => simp [ih]; ring

theorem methodKmax_le (m : Nat) : methodKmax m ≤ 30 := by
  unfold methodKmax; split <;> omega

theorem fold_words_lt (words : List (BitVec 32)) : ∀ u ∈ (words.map sext32).map fold, u < 2 ^ 32 := by
  intro u hu
  simp only [List.map_map, List.mem_map] at hu
  obtain ⟨w, -, rfl⟩ := hu
  exact fold_sext32_lt w

/-- The partitions of a legal order cover the block's residuals. -/
theorem partitions_cover {α : Type} {bs pred p : Nat} (h : legalOrder bs pred p) (us : List α)
    (hl : us.length = bs - pred) :
    ((List.range (2 ^ p)).flatMap fun j => partitionSlice bs pred p j us) = us := by
  have hp : 0 < 2 ^ p := by positivity
  obtain ⟨q, hq⟩ : ∃ q, 2 ^ p = q + 1 := ⟨2 ^ p - 1, by omega⟩
  rw [partitions_tile h.2.2, hq, partitionLo_succ, show q = 2 ^ p - 1 by omega, partitionHi_last h, ← hl,
    List.take_length]

end Sys2Proof.Machine
end

