-- ==== Sys2Proof/Laws/Exec.lean ====
section
/-! SUPPORT. Everything a command can do, said once: `exec_cases`. A later proof takes a command apart with it and
never unfolds a meaning. -/

namespace Sys2Proof.Machine

variable {s t : State}

/-- The state of a command that appended `bits` within the capacity and answered `BITLEN`. -/
def Appended (s t : State) (bits : Bits) : Prop :=
  ¬ s.exceedsCapacity bits.length ∧
    t = ({ s with out := s.out ++ bits } : State).answered (BitVec.ofNat 64 (s.bitLen + bits.length))

/-- What a command that completes found, and the state it leaves. -/
def Effect : Instr → State → State → Prop
  | .nop, s, t => t = s.answered 0
  | .clear, s, t => t = ({ s with out := [], wstate := .opened } : State).answered 0
  | .writeBits w v, s, t =>
    s.wstate = .opened ∧ 1 ≤ w.toNat ∧ w.toNat ≤ 64 ∧ v.toNat < 2 ^ w.toNat ∧ Appended s t (bitsOf v.toNat w.toNat)
  | .writeUnary n, s, t => s.wstate = .opened ∧ Appended s t (zeros n.toNat ++ [true])
  | .align, s, t => s.wstate = .opened ∧ Appended s t (zeros (padLength s.bitLen))
  | .finish, s, t =>
    s.wstate = .opened ∧ ¬ s.exceedsCapacity (padLength s.bitLen) ∧
      t = ({ s with out := s.out ++ zeros (padLength s.bitLen), wstate := .finished } : State).answered
        (BitVec.ofNat 64 ((s.bitLen + padLength s.bitLen) / 8))
  | .readOut addr, s, t => addr.toNat < s.outLen ∧ t = s.answered (zext64 (s.outByte addr.toNat))
  | .readReg reg, s, t => ∃ v, s.register reg.toNat = some v ∧ t = s.answered v
  | .loadRes idx val, s, t =>
    idx.toNat < resDepth ∧
      t = ({ s with res := s.res.write idx.toNat val, rpValid := false } : State).answered 0
  | .riceChoose k start count, s, t =>
    k.toNat ≤ 30 ∧ 1 ≤ count.toNat ∧ start.toNat + count.toNat ≤ resDepth ∧
      ∃ words, s.res.readRange start.toNat count.toNat = some words ∧
        let best := bestParameter k.toNat ((words.map sext32).map fold)
        t = ({ s with rcK := BitVec.ofNat 5 best.1, rcCost := BitVec.ofNat 64 best.2 } : State).answered
          ((BitVec.ofNat 64 best.2 <<< 8) ||| zext64 (BitVec.ofNat 5 best.1))
  | .riceEncode k start count, s, t =>
    s.wstate = .opened ∧ k.toNat ≤ 30 ∧ 1 ≤ count.toNat ∧ start.toNat + count.toNat ≤ resDepth ∧
      ∃ words, s.res.readRange start.toNat count.toNat = some words ∧
        Appended s t (riceCode ((words.map sext32).map fold) k.toNat)
  | .ricePartition pmin pmax pred bs, s, t =>
    1 ≤ bs.toNat ∧ pred.toNat ≤ 32 ∧ pred.toNat < bs.toNat ∧ pmin.toNat ≤ pmax.toNat ∧
      ∃ p ps words, legalOrders bs.toNat pred.toNat pmin.toNat pmax.toNat = p :: ps ∧
        s.res.readRange 0 (bs.toNat - pred.toNat) = some words ∧
        let best := choosePartition bs.toNat pred.toNat ((words.map sext32).map fold) p ps
        let u := s.withPartition best.1 best.2 bs pred
        t = u.answered ((u.rpCost <<< 8) ||| (zext64 u.rpMethod <<< 4) ||| zext64 u.rpOrder)
  | .riceEmit, s, t =>
    s.wstate = .opened ∧ s.rpValid = true ∧
      ∃ words, s.res.readRange 0 (s.rpBlockSize.toNat - s.rpPred.toNat) = some words ∧
        Appended s t (s.sectionOf ((words.map sext32).map fold))
  | .readKtab idx, s, t =>
    s.rpValid = true ∧ idx.toNat < 2 ^ s.rpOrder.toNat ∧ t = s.answered (zext64 (s.ktabEntry idx.toNat))
  | .frameHeader strat bs rate ch bps num, s, t =>
    s.wstate = .opened ∧ s.pbits = 0 ∧ (8000 ≤ rate.toNat ∧ rate.toNat ≤ 192000) ∧ acceptedChannels ch.toNat ∧
      1 ≤ bs.toNat ∧ (4 ≤ bps.toNat ∧ bps.toNat ≤ 32) ∧ sequenceOk strat num s ∧
      let header := frameHeaderBytes strat.toNat bs.toNat rate.toNat ch.toNat bps.toNat num.toNat
      ¬ s.exceedsCapacity (8 * header.length) ∧
        t = (({ s with out := s.out ++ bytesToBits header } : State).withHeader header strat bs num).answered
          (BitVec.ofNat 64 (s.bitLen + 8 * header.length))
  | .seqSet sstrat next, s, t =>
    sstrat.toNat ≤ 2 ∧ (sstrat = 1 → next.toNat < 2 ^ 31) ∧
      t = ({ s with seqStrat := sstrat, seqNext := next.setWidth 37 } : State).answered 0

/-- What a command leaves: suppressed, faulted with a code other than CRC, or completed. -/
def Leaves (i : Instr) (s t : State) : Prop :=
  (s.fault ≠ 0 ∧ t = s.answered 0) ∨
  (s.fault = 0 ∧ ∃ c, c ≠ FaultCode.crc ∧ t = s.faulted c.code) ∨
  ((isRead i = true ∨ s.fault = 0) ∧ Effect i s t)

theorem leaves_of_raise {i : Instr} {c : FaultCode} (hc : c ≠ .crc) (h : raiseFault c s = .next t) :
    Leaves i s t := by
  rcases raiseFault_cases c h with ⟨hs, rfl⟩ | ⟨hs, rfl⟩
  · exact .inr (.inl ⟨hs, c, hc, rfl⟩)
  · exact .inl ⟨hs, rfl⟩

theorem leaves_of_suppressed {i : Instr} (hs : s.fault ≠ 0) (h : Host.Outcome.next t = (.next (s.answered 0) : Result)) :
    Leaves i s t := by
  cases h; exact .inl ⟨hs, rfl⟩

theorem leaves_of_effect {i : Instr} (hs : s.fault = 0) (h : Effect i s t) : Leaves i s t := .inr (.inr ⟨.inr hs, h⟩)

/-- The shape of a state-changing command: gate, checks, rest. -/
theorem leaves_of_gated {i : Instr} {checks : List Check} {body : Unit → Result}
    (hcrc : FaultCode.crc ∉ checks.map Prod.snd)
    (hbody : s.fault = 0 → (∀ chk ∈ checks, chk.1 = true) → body () = .next t → Leaves i s t)
    (h : (gate s fun _ => checked checks s body) = .next t) : Leaves i s t := by
  rcases gate_cases h with ⟨hs, hr⟩ | ⟨hs, h⟩
  · exact leaves_of_suppressed hs hr
  · rcases checked_cases h with ⟨c, hc, hr⟩ | ⟨hall, h⟩
    · exact leaves_of_raise (fun e => hcrc (e ▸ hc)) hr.symm
    · exact hbody hs hall h

/-- The append at the end of a command that answers `BITLEN`. -/
theorem append_next {n : Nat} {bits : Unit → Bits} (hn : (bits ()).length = n)
    (h : append n bits s respondBitLen = .next t) :
    raiseFault .capacity s = .next t ∨ Appended s t (bits ()) := by
  rcases append_cases h with hr | ⟨hc, hr⟩
  · exact .inl hr.symm
  · subst hn
    rw [respondBitLen_after hc] at hr
    cases hr
    exact .inr ⟨hc, rfl⟩

theorem execNop_cases (h : execNop s = .next t) : Leaves .nop s t := by
  cases h; exact .inr (.inr ⟨.inl rfl, rfl⟩)

theorem execClear_cases (h : execClear s = .next t) : Leaves .clear s t := by
  rcases gate_cases h with ⟨hs, hr⟩ | ⟨hs, h⟩
  · exact leaves_of_suppressed hs hr
  · cases h; exact leaves_of_effect hs rfl

theorem execWriteBits_cases {w : BitVec 7} {v : BitVec 64} (h : execWriteBits w v s = .next t) :
    Leaves (.writeBits w v) s t := by
  refine leaves_of_gated (by simp) (fun hs hall h => ?_) h
  simp only [List.forall_mem_cons, decide_eq_true_eq] at hall
  rcases append_next (by simp) h with hr | he
  · exact leaves_of_raise (by decide) hr
  · exact leaves_of_effect hs ⟨hall.1, hall.2.1.1, hall.2.1.2, hall.2.2.1, he⟩

theorem execWriteUnary_cases {n : BitVec 64} (h : execWriteUnary n s = .next t) : Leaves (.writeUnary n) s t := by
  refine leaves_of_gated (by simp) (fun hs hall h => ?_) h
  simp only [List.forall_mem_cons, decide_eq_true_eq] at hall
  rcases append_next (by simp) h with hr | he
  · exact leaves_of_raise (by decide) hr
  · exact leaves_of_effect hs ⟨hall.1, he⟩

theorem execAlign_cases (h : execAlign s = .next t) : Leaves .align s t := by
  refine leaves_of_gated (by simp) (fun hs hall h => ?_) h
  simp only [List.forall_mem_cons, decide_eq_true_eq] at hall
  rcases append_next (by simp) h with hr | he
  · exact leaves_of_raise (by decide) hr
  · exact leaves_of_effect hs ⟨hall.1, he⟩

theorem execFinish_cases (h : execFinish s = .next t) : Leaves .finish s t := by
  refine leaves_of_gated (by simp) (fun hs hall h => ?_) h
  simp only [List.forall_mem_cons, decide_eq_true_eq] at hall
  rcases append_cases h with hr | ⟨hc, hr⟩
  · exact leaves_of_raise (by decide) hr.symm
  · have hb := bitLen_fits_of_fits hc
    refine leaves_of_effect hs ⟨hall.1, hc, ?_⟩
    have e : State.outLen { s with out := s.out ++ zeros (padLength s.bitLen), wstate := .finished } =
        (s.bitLen + padLength s.bitLen) / 8 := by simp [State.outLen, State.bitLen]
    rw [respondOutLen, respond_eq, e, zext64_ofNat (by omega)] at hr
    cases hr; rfl

theorem execReadOut_cases {addr : BitVec 32} (h : execReadOut addr s = .next t) : Leaves (.readOut addr) s t := by
  rcases checked_cases h with ⟨c, hc, hr⟩ | ⟨hall, h⟩
  · exact leaves_of_raise (by rintro rfl; simp at hc) hr.symm
  · simp only [List.forall_mem_cons, decide_eq_true_eq] at hall
    cases h; exact .inr (.inr ⟨.inl rfl, hall.1, rfl⟩)

theorem execReadReg_cases {reg : BitVec 8} (h : execReadReg reg s = .next t) : Leaves (.readReg reg) s t := by
  unfold execReadReg at h
  split at h
  · rename_i v hv
    cases h; exact .inr (.inr ⟨.inl rfl, v, hv, rfl⟩)
  · exact leaves_of_raise (by decide) h

theorem execLoadRes_cases {idx : BitVec 16} {val : BitVec 32} (h : execLoadRes idx val s = .next t) :
    Leaves (.loadRes idx val) s t := by
  refine leaves_of_gated (by simp) (fun hs hall h => ?_) h
  simp only [List.forall_mem_cons, decide_eq_true_eq] at hall
  cases h; exact leaves_of_effect hs ⟨hall.1, rfl⟩

theorem execRiceChoose_cases {k : BitVec 5} {start count : BitVec 16} (h : execRiceChoose k start count s = .next t) :
    Leaves (.riceChoose k start count) s t := by
  refine leaves_of_gated (by simp) (fun hs hall h => ?_) h
  simp only [List.forall_mem_cons, decide_eq_true_eq] at hall
  rcases withResiduals_cases h with ⟨-, hr⟩ | ⟨words, hw, h⟩
  · cases hr
  · cases h; exact leaves_of_effect hs ⟨hall.1, hall.2.1, hall.2.2.1, words, hw, rfl⟩

theorem execRiceEncode_cases {k : BitVec 5} {start count : BitVec 16} (h : execRiceEncode k start count s = .next t) :
    Leaves (.riceEncode k start count) s t := by
  refine leaves_of_gated (by simp) (fun hs hall h => ?_) h
  simp only [List.forall_mem_cons, decide_eq_true_eq] at hall
  rcases withResiduals_cases h with ⟨-, hr⟩ | ⟨words, hw, h⟩
  · cases hr
  · rcases append_next (by simp) h with hr | he
    · exact leaves_of_raise (by decide) hr
    · exact leaves_of_effect hs ⟨hall.1, hall.2.1, hall.2.2.1, hall.2.2.2.1, words, hw, he⟩

theorem execRicePartition_cases {pmin pmax : BitVec 4} {pred : BitVec 6} {bs : BitVec 16}
    (h : execRicePartition pmin pmax pred bs s = .next t) : Leaves (.ricePartition pmin pmax pred bs) s t := by
  refine leaves_of_gated (by simp) (fun hs hall h => ?_) h
  simp only [List.forall_mem_cons, decide_eq_true_eq] at hall
  split at h
  · exact leaves_of_raise (by decide) h
  · rename_i p ps hp
    rcases withResiduals_cases h with ⟨-, hr⟩ | ⟨words, hw, h⟩
    · cases hr
    · cases h
      exact leaves_of_effect hs ⟨hall.1, hall.2.1, hall.2.2.1, hall.2.2.2.1, p, ps, words, hp, hw, rfl⟩

theorem execRiceEmit_cases (h : execRiceEmit s = .next t) : Leaves .riceEmit s t := by
  refine leaves_of_gated (by simp) (fun hs hall h => ?_) h
  simp only [List.forall_mem_cons, decide_eq_true_eq] at hall
  rcases withResiduals_cases h with ⟨-, hr⟩ | ⟨words, hw, h⟩
  · cases hr
  · rcases append_next (by simp [State.sectionOf, State.sectionLength]) h with hr | he
    · exact leaves_of_raise (by decide) hr
    · exact leaves_of_effect hs ⟨hall.1, hall.2.1, words, hw, he⟩

theorem execReadKtab_cases {idx : BitVec 15} (h : execReadKtab idx s = .next t) : Leaves (.readKtab idx) s t := by
  rcases checked_cases h with ⟨c, hc, hr⟩ | ⟨hall, h⟩
  · exact leaves_of_raise (by rintro rfl; simp at hc) hr.symm
  · simp only [List.forall_mem_cons, decide_eq_true_eq] at hall
    cases h; exact .inr (.inr ⟨.inl rfl, hall.1, hall.2.1, rfl⟩)

theorem execFrameHeader_cases {strat : BitVec 1} {bs : BitVec 16} {rate : BitVec 18} {ch : BitVec 4} {bps : BitVec 6}
    {num : BitVec 36} (h : execFrameHeader strat bs rate ch bps num s = .next t) :
    Leaves (.frameHeader strat bs rate ch bps num) s t := by
  refine leaves_of_gated (by simp) (fun hs hall h => ?_) h
  simp only [List.forall_mem_cons, decide_eq_true_eq] at hall
  obtain ⟨h1, h2, h3, h4, h5, h6, h7, -⟩ := hall
  rcases append_cases h with hr | ⟨hc, hr⟩
  · exact leaves_of_raise (by decide) hr.symm
  · have hb := bitLen_fits_of_fits hc
    refine leaves_of_effect hs ⟨h1, h2, h3, h4, h5, h6, h7, hc, ?_⟩
    have e : (({ s with out := s.out ++ bytesToBits (frameHeaderBytes strat.toNat bs.toNat rate.toNat ch.toNat
        bps.toNat num.toNat) } : State).withHeader (frameHeaderBytes strat.toNat bs.toNat rate.toNat ch.toNat
        bps.toNat num.toNat) strat bs num).bitLen = s.bitLen + 8 * (frameHeaderBytes strat.toNat bs.toNat rate.toNat
        ch.toNat bps.toNat num.toNat).length := by
      simp only [State.bitLen, State.withHeader_out, List.length_append, length_bytesToBits]
    rw [respondBitLen, respond_eq, e, zext64_ofNat hb] at hr
    cases hr; rfl

theorem execSeqSet_cases {sstrat : BitVec 2} {next : BitVec 36} (h : execSeqSet sstrat next s = .next t) :
    Leaves (.seqSet sstrat next) s t := by
  refine leaves_of_gated (by simp) (fun hs hall h => ?_) h
  simp only [List.forall_mem_cons, decide_eq_true_eq] at hall
  cases h; exact leaves_of_effect hs ⟨hall.1, hall.2.1, rfl⟩

/-- Everything a command that answers a next state can do. -/
theorem exec_cases {i : Instr} (h : exec i s = .next t) : Leaves i s t := by
  cases i with
  | nop => exact execNop_cases h
  | clear => exact execClear_cases h
  | writeBits w v => exact execWriteBits_cases h
  | writeUnary n => exact execWriteUnary_cases h
  | align => exact execAlign_cases h
  | finish => exact execFinish_cases h
  | readOut addr => exact execReadOut_cases h
  | readReg reg => exact execReadReg_cases h
  | loadRes idx val => exact execLoadRes_cases h
  | riceChoose k start count => exact execRiceChoose_cases h
  | riceEncode k start count => exact execRiceEncode_cases h
  | ricePartition pmin pmax pred bs => exact execRicePartition_cases h
  | riceEmit => exact execRiceEmit_cases h
  | readKtab idx => exact execReadKtab_cases h
  | frameHeader strat bs rate ch bps num => exact execFrameHeader_cases h
  | seqSet sstrat next => exact execSeqSet_cases h

/-- A command that completes leaves FAULT as it was. -/
theorem effect_fault {i : Instr} (h : Effect i s t) : t.fault = s.fault := by
  cases i with
  | nop => cases h; rfl
  | clear => cases h; rfl
  | writeBits w v => obtain ⟨-, -, -, -, -, rfl⟩ := h; rfl
  | writeUnary n => obtain ⟨-, -, rfl⟩ := h; rfl
  | align => obtain ⟨-, -, rfl⟩ := h; rfl
  | finish => obtain ⟨-, -, rfl⟩ := h; rfl
  | readOut addr => obtain ⟨-, rfl⟩ := h; rfl
  | readReg reg => obtain ⟨v, -, rfl⟩ := h; rfl
  | loadRes idx val => obtain ⟨-, rfl⟩ := h; rfl
  | riceChoose k start count => obtain ⟨-, -, -, words, -, rfl⟩ := h; rfl
  | riceEncode k start count => obtain ⟨-, -, -, -, words, -, -, rfl⟩ := h; rfl
  | ricePartition pmin pmax pred bs => obtain ⟨-, -, -, -, p, ps, words, -, -, rfl⟩ := h; rfl
  | riceEmit => obtain ⟨-, -, words, -, -, rfl⟩ := h; rfl
  | readKtab idx => obtain ⟨-, -, rfl⟩ := h; rfl
  | frameHeader strat bs rate ch bps num => obtain ⟨-, -, -, -, -, -, -, -, rfl⟩ := h; rfl
  | seqSet sstrat next => obtain ⟨-, -, rfl⟩ := h; rfl

/-- Everything a step that answers a next state can do: idle, take the reset event, raise ILLEGAL, or run a command. -/
theorem step_cases (h : step s = .next t) :
    (s.inputs = [] ∧ t = s) ∨
    (∃ rest, s.inputs = .reset :: rest ∧ t = ({ s with inputs := rest } : State).afterReset) ∨
    (∃ tx rest, s.inputs = .command tx :: rest ∧
      ((∃ e, decode tx = .error e ∧ raiseFault .illegal { s with inputs := rest } = .next t) ∨
        ∃ i, decode tx = .ok i ∧ exec i { s with inputs := rest } = .next t)) := by
  unfold step State.nextInput at h
  match hin : s.inputs with
  | [] => simp only [hin] at h; cases h; exact .inl ⟨rfl, rfl⟩
  | .reset :: rest => simp only [hin] at h; cases h; exact .inr (.inl ⟨rest, rfl, rfl⟩)
  | .command tx :: rest =>
    simp only [hin] at h
    refine .inr (.inr ⟨tx, rest, rfl, ?_⟩)
    cases hd : decode tx with
    | ok i => rw [hd] at h; exact .inr ⟨i, rfl, h⟩
    | error e => rw [hd] at h; exact .inl ⟨e, rfl, h⟩

end Sys2Proof.Machine
end

