-- ==== Sys2Proof/Laws/Memory.lean ====
section
/-! SUPPORT. The memory laws: read after write, untouched cells, and that every operation keeps the canonical form. -/

namespace Sys2Proof.Machine

variable {w : Nat}

namespace Memory

@[simp] theorem read_nil (i : Nat) : Memory.read ([] : Memory w) i = none := rfl

theorem read_cons (j : Nat) (u : BitVec w) (m : Memory w) (i : Nat) :
    Memory.read ((j, u) :: m) i = if i = j then some u else Memory.read m i := rfl

theorem read_write_self (m : Memory w) (i : Nat) (v : BitVec w) : (Memory.write m i v).read i = some v := by
  induction m with
  | nil => simp [Memory.write, Memory.read]
  | cons c m ih =>
    obtain ⟨j, u⟩ := c
    unfold Memory.write
    split
    · simp [read_cons]
    · split
      · simp [read_cons]
      · rename_i h; simp [read_cons, h, ih]

theorem read_write_ne (m : Memory w) {i k : Nat} (v : BitVec w) (h : k ≠ i) :
    (Memory.write m i v).read k = m.read k := by
  induction m with
  | nil => simp [Memory.write, Memory.read, h]
  | cons c m ih =>
    obtain ⟨j, u⟩ := c
    unfold Memory.write
    split
    · simp [read_cons, h]
    · split
      · rename_i h1 h2; subst h2; simp [read_cons, h]
      · simp [read_cons, ih]

theorem mem_write {m : Memory w} {i : Nat} {v : BitVec w} {c : Nat × BitVec w} (h : c ∈ Memory.write m i v) :
    c = (i, v) ∨ c ∈ m := by
  induction m with
  | nil => simpa [Memory.write] using h
  | cons d m ih =>
    obtain ⟨j, u⟩ := d
    unfold Memory.write at h
    split at h
    · simpa using h
    · split at h
      · rcases List.mem_cons.mp h with h | h
        · exact .inl h
        · exact .inr (List.mem_cons_of_mem _ h)
      · rcases List.mem_cons.mp h with h | h
        · exact .inr (h ▸ List.mem_cons_self)
        · rcases ih h with h | h
          · exact .inl h
          · exact .inr (List.mem_cons_of_mem _ h)

/-- A write keeps the canonical form. -/
theorem wf_write {m : Memory w} (hm : m.wf) (i : Nat) (v : BitVec w) : (Memory.write m i v).wf := by
  induction m with
  | nil => simp [Memory.write, Memory.wf]
  | cons c m ih =>
    obtain ⟨j, u⟩ := c
    obtain ⟨hj, hm'⟩ := List.pairwise_cons.mp hm
    unfold Memory.write
    split
    · rename_i hij
      refine List.pairwise_cons.mpr ⟨fun d hd => ?_, hm⟩
      rcases List.mem_cons.mp hd with h | h
      · subst h; exact hij
      · exact lt_trans hij (hj d h)
    · split
      · rename_i hij; subst hij; exact List.pairwise_cons.mpr ⟨hj, hm'⟩
      · refine List.pairwise_cons.mpr ⟨fun d hd => ?_, ih hm'⟩
        rcases mem_write hd with h | h
        · subst h; simp only; omega
        · exact hj d h

/-- A read of a canonical memory finds exactly the listed cells. -/
theorem read_eq_some_iff {m : Memory w} (hm : m.wf) (i : Nat) (v : BitVec w) : m.read i = some v ↔ (i, v) ∈ m := by
  induction m with
  | nil => simp
  | cons c m ih =>
    obtain ⟨j, u⟩ := c
    obtain ⟨hj, hm'⟩ := List.pairwise_cons.mp hm
    rw [read_cons]
    split
    · rename_i h; subst h
      constructor
      · intro h; simp_all
      · intro h
        rcases List.mem_cons.mp h with h | h
        · simpa using h.symm
        · exact absurd (hj _ h) (lt_irrefl _)
    · rename_i h; rw [ih hm']; simp [h]

theorem readRange_succ (m : Memory w) (start count : Nat) : m.readRange start (count + 1) =
    match m.read start, m.readRange (start + 1) count with
    | some v, some vs => some (v :: vs)
    | _, _ => none := rfl

/-- A range read succeeds exactly when every cell of the range has been written, and then lists them in order. -/
theorem readRange_eq_some_iff (m : Memory w) (start count : Nat) (vs : List (BitVec w)) :
    m.readRange start count = some vs ↔ vs.length = count ∧ ∀ i < count, m.read (start + i) = vs[i]? := by
  induction count generalizing start vs with
  | zero =>
    simp only [Memory.readRange, Option.some.injEq, Nat.not_lt_zero, false_implies, implies_true, and_true]
    exact ⟨fun h => h ▸ rfl, fun h => (List.length_eq_zero_iff.mp h).symm⟩
  | succ count ih =>
    rw [readRange_succ]
    constructor
    · intro h
      split at h
      · rename_i v us hv hus
        obtain ⟨hl, hr⟩ := (ih _ _).mp hus
        simp only [Option.some.injEq] at h
        subst h
        refine ⟨by simp [hl], fun i hi => ?_⟩
        cases i with
        | zero => simpa using hv
        | succ i => simpa [Nat.add_assoc, Nat.add_comm 1] using hr i (by omega)
      · cases h
    · rintro ⟨hl, hr⟩
      match vs, hl with
      | v :: us, hl =>
        have h0 : m.read start = some v := by simpa using hr 0 (by omega)
        have h1 : m.readRange (start + 1) count = some us := by
          refine (ih _ _).mpr ⟨by simpa using hl, fun i hi => ?_⟩
          have := hr (i + 1) (by omega)
          simpa [Nat.add_assoc, Nat.add_comm 1] using this
        rw [h0, h1]

/-- A range read fails exactly when some cell of the range has not been written. -/
theorem readRange_eq_none_iff (m : Memory w) (start count : Nat) :
    m.readRange start count = none ↔ ∃ i < count, m.read (start + i) = none := by
  induction count generalizing start with
  | zero => simp [Memory.readRange]
  | succ count ih =>
    rw [readRange_succ]
    constructor
    · intro h
      cases h0 : m.read start with
      | none => exact ⟨0, by omega, by simpa using h0⟩
      | some v =>
        cases h1 : m.readRange (start + 1) count with
        | none =>
          obtain ⟨i, hi, hr⟩ := (ih _).mp h1
          exact ⟨i + 1, by omega, by simpa [Nat.add_assoc, Nat.add_comm 1] using hr⟩
        | some vs => simp [h0, h1] at h
    · rintro ⟨i, hi, hr⟩
      cases i with
      | zero => simp only [Nat.add_zero] at hr; rw [hr]
      | succ i =>
        have h1 : m.readRange (start + 1) count = none :=
          (ih _).mpr ⟨i, by omega, by simpa [Nat.add_assoc, Nat.add_comm 1] using hr⟩
        rw [h1]; cases m.read start <;> rfl

theorem mem_cells {start : Nat} {vs : List (BitVec w)} {c : Nat × BitVec w} (h : c ∈ Memory.cells start vs) :
    start ≤ c.1 ∧ c.1 < start + vs.length := by
  induction vs generalizing start with
  | nil => cases h
  | cons v vs ih =>
    rcases List.mem_cons.mp h with h | h
    · subst h; simp
    · have := ih h; simp only [List.length_cons]; omega

theorem wf_cells (start : Nat) (vs : List (BitVec w)) : (Memory.cells start vs).wf := by
  induction vs generalizing start with
  | nil => exact List.Pairwise.nil
  | cons v vs ih =>
    refine List.pairwise_cons.mpr ⟨fun d hd => ?_, ih _⟩
    have := mem_cells hd
    simp only; omega

/-- `writeLow` keeps the canonical form. -/
theorem wf_writeLow {m : Memory w} (hm : m.wf) (vs : List (BitVec w)) : (Memory.writeLow m vs).wf := by
  refine List.pairwise_append.mpr ⟨wf_cells _ _, hm.filter _, fun a ha b hb => ?_⟩
  have h1 := mem_cells ha
  have h2 : vs.length ≤ b.1 := by simpa using (List.mem_filter.mp hb).2
  omega

theorem mem_writeLow {m : Memory w} {vs : List (BitVec w)} {c : Nat × BitVec w} (h : c ∈ Memory.writeLow m vs) :
    c.1 < vs.length ∨ c ∈ m := by
  rcases List.mem_append.mp h with h | h
  · have := mem_cells h; left; omega
  · exact .inr (List.mem_filter.mp h).1

theorem read_append (a b : Memory w) (i : Nat) :
    Memory.read (a ++ b) i = (Memory.read a i).or (Memory.read b i) := by
  induction a with
  | nil => simp [Memory.read]
  | cons c a ih =>
    obtain ⟨j, u⟩ := c
    simp only [List.cons_append, read_cons, ih]
    split <;> simp

theorem read_cells (start : Nat) (vs : List (BitVec w)) (i : Nat) :
    Memory.read (Memory.cells start vs) i = if start ≤ i then vs[i - start]? else none := by
  induction vs generalizing start with
  | nil => simp [Memory.cells]
  | cons v vs ih =>
    simp only [Memory.cells, read_cons, ih]
    by_cases h : i = start
    · subst h; simp
    · by_cases h' : start ≤ i
      · have e : i - start = (i - (start + 1)) + 1 := by omega
        simp [h, h', show start + 1 ≤ i by omega, e]
      · simp [h, h', show ¬ start + 1 ≤ i by omega]

theorem read_filter_ge (m : Memory w) (n i : Nat) (h : n ≤ i) :
    Memory.read (m.filter fun cell => n ≤ cell.1) i = m.read i := by
  induction m with
  | nil => rfl
  | cons c m ih =>
    obtain ⟨j, u⟩ := c
    simp only [List.filter_cons, read_cons]
    split
    · simp only [read_cons, ih]
    · rename_i hj
      have : i ≠ j := by simp at hj; omega
      simp [this, ih]

/-- The written cells of `writeLow`. -/
theorem read_writeLow_lt (m : Memory w) (vs : List (BitVec w)) (i : Nat) (h : i < vs.length) :
    (Memory.writeLow m vs).read i = vs[i]? := by
  simp [Memory.writeLow, read_append, read_cells, h]

/-- The cells `writeLow` keeps. -/
theorem read_writeLow_ge (m : Memory w) (vs : List (BitVec w)) (i : Nat) (h : vs.length ≤ i) :
    (Memory.writeLow m vs).read i = m.read i := by
  simp [Memory.writeLow, read_append, read_cells, read_filter_ge m _ _ h, List.getElem?_eq_none h]

end Memory

end Sys2Proof.Machine
end

