-- ==== Sys2Proof/Laws/RiceReader.lean ====
section
/-! SUPPORT. The reader of a residual section undoes the code words one by one. -/

namespace Sys2Proof.Machine

theorem readUnary_zeros (n : Nat) (rest : Bits) : readUnary (zeros n ++ true :: rest) = some (n, rest) := by
  induction n with
  | zero => rfl
  | succ n ih => simp only [zeros, List.replicate_succ, List.cons_append] at ih ⊢; simp [readUnary, ih]

theorem readField_bitsOf {v w : Nat} (h : v < 2 ^ w) (rest : Bits) :
    readField w (bitsOf v w ++ rest) = some (v, rest) := by
  have e : (bitsOf v w).take w = bitsOf v w := List.take_of_length_le (by simp)
  unfold readField
  rw [if_pos (by simp), List.take_append_of_le_length (by simp), List.drop_append_of_le_length (by simp), e,
    bitsToNat_bitsOf, Nat.mod_eq_of_lt h]
  simp

theorem readResidual_riceBits (r : Int) (k : Nat) (rest : Bits) :
    readResidual k (riceBits (fold r) k ++ rest) = some (r, rest) := by
  unfold readResidual riceBits
  rw [List.append_assoc, List.cons_append, readUnary_zeros]
  simp only []
  rw [readField_bitsOf (Nat.mod_lt _ (by positivity))]
  simp only []
  rw [Nat.shiftRight_eq_div_pow, Nat.div_add_mod', unfold_fold]

theorem readResiduals_riceCode (rs : List Int) (k : Nat) (rest : Bits) :
    readResiduals k rs.length (riceCode (rs.map fold) k ++ rest) = some (rs, rest) := by
  induction rs with
  | nil => rfl
  | cons r rs ih =>
    simp only [List.length_cons, readResiduals, List.map_cons, riceCode, List.flatMap_cons, List.append_assoc] at ih ⊢
    rw [readResidual_riceBits]
    simp only []
    rw [ih]

end Sys2Proof.Machine
end

