-- ==== Sys2Proof/Machine/Observe.lean ====
section
/-! DEFINITION. What the host sees of a run (70_reset_and_hazards.md R260), and the names SND gives the faults
(60_exceptions.md R235). -/

namespace Sys2Proof.Machine

/-- The bytes READ_OUT can read, `OUT[0..OUT_LEN-1]`. -/
def State.outBytes (s : State) : List Byte := (List.range s.outLen).map s.outByte

/-- The observation of a run: its responses in the order given, and the final state (R260). -/
structure Observation where
  responses : List Response
  final : State
deriving DecidableEq, Repr

/-- What a run that ended in `s` shows. -/
def State.observe (s : State) : Observation := ⟨s.responses.reverse, s⟩

/-- The final `FAULT`. -/
def Observation.fault (o : Observation) : BitVec 4 := o.final.fault

/-- The final `OUT[0..OUT_LEN-1]`. -/
def Observation.bytes (o : Observation) : List Byte := o.final.outBytes

/-- "A run whose final `FAULT` is nonzero produced no valid stream" (R260). -/
def Observation.hasStream (o : Observation) : Bool := o.fault = 0

/-- A run of an instance with the given parameter: the inputs, one a step, from the reset state (R260). -/
def runFromReset (config : Config) (inputs : List HostInput) : Result :=
  Host.Core.run core inputs.length { State.reset with config := config, inputs := inputs }

/-- The error names of SND that R235 maps to fault codes. -/
inductive SndError where
  | overflowError
  | internalOverflow
  | bitWidthOverflow
  | frameSequenceMismatch
  | crcMismatchConstruction
  | unsupportedSampleRate
  | unsupportedChannelCount
  | emptyInput
  | configurationError
  | stateError
deriving DecidableEq, Repr

/-- The codes the block reports for an SND error (R235). ConfigurationError has one for each of its causes, the rate and
the channel count; for a compression level the block has none (R236). -/
def SndError.codes : SndError → List FaultCode
  | .overflowError => [.overflow]
  | .internalOverflow => [.overflow, .capacity]
  | .bitWidthOverflow => [.overflow]
  | .frameSequenceMismatch => [.sequence]
  | .crcMismatchConstruction => [.crc]
  | .unsupportedSampleRate => [.rate]
  | .unsupportedChannelCount => [.channels]
  | .emptyInput => [.empty]
  | .configurationError => [.rate, .channels]
  | .stateError => [.state]

end Sys2Proof.Machine
end

