-- ==== Sys2Proof/Tests/Slice0.lean ====
section
/-! SUPPORT. Tests. Every expected value is a row of spec/95_test_vectors.md, or is counted by hand from the rule the
comment names; and for every statement with hypotheses a witness that meets them, clause by clause. -/

namespace Sys2Proof.Tests

open Sys2Proof Sys2Proof.Machine

/-! ### Helpers -/

/-- The reset state with `OUT_CAP = 16`. -/
def blank : State := { State.reset with config := ⟨16⟩ }

/-- `blank` with the bit string `bits` appended. -/
def holding (bits : Bits) : State := { blank with out := bits }

/-- `blank` after FINISH. -/
def closed : State := { blank with wstate := .finished }

/-- `blank` with `RES[0..]` loaded. -/
def loaded (rs : List Int) : State := { blank with res := Memory.cells 0 (rs.map (BitVec.ofInt 32)) }

/-- `blank` with the last RES entry loaded. -/
def lastLoaded : State := { blank with res := [(65534, 2)] }

/-- Vector V-P7: one residual, 1, chosen for a block of one sample. -/
def chosen : State :=
  { loaded [1] with
    rpMethod := 0, rpOrder := 0, rpCost := 13, ktab := [(0, 0)], rpBlockSize := 1, rpPred := 0, rpValid := true }

/-- `chosen` in order 1, as a block of two samples: residuals 1, 1; the section is 6 + 2 * (4 + 3) = 20 bits. -/
def chosenTwo : State :=
  { loaded [1, 1] with
    rpMethod := 0, rpOrder := 1, rpCost := 20, ktab := [(0, 0), (1, 0)], rpBlockSize := 2, rpPred := 0, rpValid := true }

/-- `blank` faulted with RANGE. -/
def stuck : State := { chosen with fault := 4, out := bitsOf 0xAB 8 }

/-- The state of an outcome. -/
def stateOf : Result → Option State
  | .next t => some t
  | .fault _ => none
  | .refused _ => none

/-- The response of an outcome. -/
def answerOf (r : Result) : Option Response := (stateOf r).bind fun t => t.responses.head?

/-- The bit string an outcome leaves. -/
def outOf (r : Result) : Option Bits := (stateOf r).map State.out

/-! ### Well-formed lines: each check refuses a line that is one past its field (30_encoding.md R74) -/

theorem test_wf_write_bits :
    (AsmLine.writeBits 127 (2 ^ 64 - 1)).wellFormed = true ∧ (AsmLine.writeBits 128 0).wellFormed = false ∧
      (AsmLine.writeBits 1 (2 ^ 64)).wellFormed = false := by decide

theorem test_wf_write_unary :
    (AsmLine.writeUnary (2 ^ 64 - 1)).wellFormed = true ∧ (AsmLine.writeUnary (2 ^ 64)).wellFormed = false := by decide

theorem test_wf_reads :
    (AsmLine.readOut (2 ^ 32)).wellFormed = false ∧ (AsmLine.readReg 256).wellFormed = false ∧
      (AsmLine.readKtab 32768).wellFormed = false ∧ (AsmLine.readReg 255).wellFormed = true := by decide

theorem test_wf_load_res :
    (AsmLine.loadRes 65536 0).wellFormed = false ∧ (AsmLine.loadRes 0 (2 ^ 31)).wellFormed = false ∧
      (AsmLine.loadRes 0 (-2 ^ 31 - 1)).wellFormed = false ∧ (AsmLine.loadRes 65535 (-2 ^ 31)).wellFormed = true := by
  decide

theorem test_wf_rice_choose :
    (AsmLine.riceChoose 32 0 1).wellFormed = false ∧ (AsmLine.riceChoose 0 65536 1).wellFormed = false ∧
      (AsmLine.riceChoose 0 0 65536).wellFormed = false ∧ (AsmLine.riceChoose 31 65535 65535).wellFormed = true := by
  decide

theorem test_wf_rice_encode :
    (AsmLine.riceEncode 32 0 1).wellFormed = false ∧ (AsmLine.riceEncode 0 65536 1).wellFormed = false ∧
      (AsmLine.riceEncode 0 0 65536).wellFormed = false ∧ (AsmLine.riceEncode 31 65535 65535).wellFormed = true := by
  decide

theorem test_wf_rice_partition :
    (AsmLine.ricePartition 16 0 0 1).wellFormed = false ∧ (AsmLine.ricePartition 0 16 0 1).wellFormed = false ∧
      (AsmLine.ricePartition 0 0 64 1).wellFormed = false ∧ (AsmLine.ricePartition 0 0 0 65536).wellFormed = false ∧
      (AsmLine.ricePartition 15 15 63 65535).wellFormed = true := by decide

theorem test_wf_frame_header :
    (AsmLine.frameHeader 2 1 44100 1 16 0).wellFormed = false ∧
      (AsmLine.frameHeader 0 65536 44100 1 16 0).wellFormed = false ∧
      (AsmLine.frameHeader 0 1 262144 1 16 0).wellFormed = false ∧
      (AsmLine.frameHeader 0 1 44100 16 16 0).wellFormed = false ∧
      (AsmLine.frameHeader 0 1 44100 1 64 0).wellFormed = false ∧
      (AsmLine.frameHeader 0 1 44100 1 16 (2 ^ 36)).wellFormed = false ∧
      (AsmLine.frameHeader 1 65535 262143 15 63 (2 ^ 36 - 1)).wellFormed = true := by decide

theorem test_wf_seq_set :
    (AsmLine.seqSet 4 0).wellFormed = false ∧ (AsmLine.seqSet 0 (2 ^ 36)).wellFormed = false ∧
      (AsmLine.seqSet 3 (2 ^ 36 - 1)).wellFormed = true := by decide

/-! ### Decoding: words written out bit by bit from the layouts of 30_encoding.md R73, R74 -/

theorem test_decode_nop : decode ⟨0b00000000000000000000000000000000, 0⟩ = .ok .nop := by decide

theorem test_decode_clear : decode ⟨0b00000100000000000000000000000000, 0⟩ = .ok .clear := by decide

theorem test_decode_write_bits :
    decode ⟨0b00001000000000000000000000000011, 5⟩ = .ok (.writeBits 3 5) := by decide

theorem test_decode_write_unary : decode ⟨0b00001100000000000000000000000000, 12⟩ = .ok (.writeUnary 12) := by decide

theorem test_decode_align : decode ⟨0b00010000000000000000000000000000, 0⟩ = .ok .align := by decide

theorem test_decode_finish : decode ⟨0b00010100000000000000000000000000, 0⟩ = .ok .finish := by decide

theorem test_decode_read_out : decode ⟨0b00011000000000000000000000000000, 6⟩ = .ok (.readOut 6) := by decide

theorem test_decode_read_reg : decode ⟨0b00011100000000000000000000001110, 0⟩ = .ok (.readReg 14) := by decide

theorem test_decode_load_res :
    decode ⟨0b00100000000000000000000000000011, 0xFFFFFFFB⟩ = .ok (.loadRes 3 (BitVec.ofInt 32 (-5))) := by decide

theorem test_decode_rice_choose :
    decode ⟨0b00100100000000000000000000011110, 0x40003⟩ = .ok (.riceChoose 30 3 4) := by decide

theorem test_decode_rice_encode :
    decode ⟨0b00101000000000000000000000000011, 0x80001⟩ = .ok (.riceEncode 3 1 8) := by decide

theorem test_decode_rice_partition :
    decode ⟨0b00101100000000000010000011110010, 64⟩ = .ok (.ricePartition 2 15 32 64) := by decide

theorem test_decode_rice_emit : decode ⟨0b00110000000000000000000000000000, 0⟩ = .ok .riceEmit := by decide

theorem test_decode_read_ktab : decode ⟨0b00110100000000000000000000000000, 1⟩ = .ok (.readKtab 1) := by decide

/-- Vector V-H8. -/
theorem test_decode_frame_header :
    decode ⟨0b00111000101011000100010010011000, 0x01003E8080000000⟩ =
      .ok (.frameHeader 1 1000 44100 9 16 0x80000000) := by decide

theorem test_decode_seq_set : decode ⟨0b00111100000000000000000000000001, 10⟩ = .ok (.seqSet 1 10) := by decide

/-- Vectors V-D1 to V-D5 and V-D7 to V-D9. -/
theorem test_decode_rejects :
    decode ⟨0x40000000, 0⟩ = .error .reservedOpcode ∧ decode ⟨0xFC000000, 0⟩ = .error .reservedOpcode ∧
      decode ⟨0x00000000, 1⟩ = .error .reservedArgBits ∧ decode ⟨0x08000088, 1⟩ = .error .reservedCmdBits ∧
      decode ⟨0x1C000000, 5⟩ = .error .reservedArgBits ∧ decode ⟨0x20000000, 0x100000000⟩ = .error .reservedArgBits ∧
      decode ⟨0x38AC4404, 0x100001000000000⟩ = .error .reservedCmdBits ∧
      decode ⟨0x38AC4400, 0x500001000000000⟩ = .error .reservedArgBits := by decide

/-- The encoder on vector V-F14, and the table word of a 32-bit row. -/
theorem test_encode_frame_header :
    encode (.frameHeader 1 1000 44100 0 16 4096) = ⟨0x38AC4408, 0x1003E8000001000⟩ ∧
      decodeTableWord 32 0x1C00000E = some (.readReg 14) := by decide

/-! ### One command each, from spec/95_test_vectors.md -/

/-- V-A1. -/
theorem test_nop : answerOf (exec .nop State.reset) = some ⟨0, 0⟩ := by decide

/-- V-D12: the response carries the sticky code. -/
theorem test_nop_faulted : answerOf (exec .nop stuck) = some ⟨4, 0⟩ := by decide

/-- V-B23. -/
theorem test_clear :
    (stateOf (exec .clear closed)).map (fun t => (t.outLen, t.wstate, t.fault)) = some (0, .opened, 0) := by decide

/-- V-D14: CLEAR is suppressed while FAULT is nonzero. -/
theorem test_clear_suppressed :
    (stateOf (exec .clear stuck)).map (fun t => (t.bitLen, t.fault)) = some (8, 4) := by decide

/-- V-B2. -/
theorem test_write_bits :
    answerOf (exec (.writeBits 16 0xABCD) (holding [true, false, true])) = some ⟨0, 0x13⟩ ∧
      (stateOf (exec (.writeBits 16 0xABCD) (holding [true, false, true]))).map
        (fun t => (t.outByte 0, t.outByte 1, t.pbits, t.pacc)) = some (0xB5, 0x79, 3, 5) := by decide

/-- V-B9. -/
theorem test_write_bits_overflow : answerOf (exec (.writeBits 4 16) blank) = some ⟨1, 0⟩ := by decide

/-- V-B13. -/
theorem test_write_unary :
    answerOf (exec (.writeUnary 12) (holding [true, false, true])) = some ⟨0, 0x10⟩ ∧
      (stateOf (exec (.writeUnary 12) (holding [true, false, true]))).map (fun t => (t.outByte 0, t.outByte 1)) =
        some (0xA0, 0x01) := by decide

/-- V-B14: the length is exact, not wrapped, and the bits are not built. -/
theorem test_write_unary_capacity : answerOf (exec (.writeUnary 0xFFFFFFFFFFFFFFFF) blank) = some ⟨5, 0⟩ := by decide

/-- V-B15. -/
theorem test_align :
    answerOf (exec .align (holding [true, false, true])) = some ⟨0, 8⟩ ∧
      (stateOf (exec .align (holding [true, false, true]))).map (·.outByte 0) = some 0xA0 := by decide

set_option maxRecDepth 4000 in
/-- V-B26. -/
theorem test_align_capacity : answerOf (exec .align (holding (zeros 129))) = some ⟨5, 0⟩ := by decide

/-- V-B18. -/
theorem test_finish :
    answerOf (exec .finish (holding [true, false, true])) = some ⟨0, 1⟩ ∧
      (stateOf (exec .finish (holding [true, false, true]))).map (fun t => (t.outByte 0, t.wstate)) =
        some (0xA0, .finished) := by decide

/-- V-B20. -/
theorem test_finish_again : answerOf (exec .finish closed) = some ⟨2, 0⟩ := by decide

/-- V-D16. -/
theorem test_read_out : answerOf (exec (.readOut 0) stuck) = some ⟨4, 0xAB⟩ := by decide

/-- V-A13. -/
theorem test_read_out_range : answerOf (exec (.readOut 0) blank) = some ⟨4, 0⟩ := by decide

/-- V-A5: `PBITS = 5`, `SEQ_STRAT = 1`. -/
theorem test_read_reg_status :
    answerOf (exec (.readReg 0) { holding (zeros 53) with seqStrat := 1 }) = some ⟨0, 0x2A0⟩ := by decide

/-- V-A10 and V-D6. -/
theorem test_read_reg_last :
    answerOf (exec (.readReg 14) State.reset) = some ⟨0, 0x1000⟩ ∧
      answerOf (exec (.readReg 15) State.reset) = some ⟨3, 0⟩ := by decide

/-- V-R2. -/
theorem test_load_res :
    (stateOf (exec (.loadRes 65534 0x80000000) chosen)).map (fun t => (t.res, t.rpValid)) =
      some ([(0, 1), (65534, 0x80000000)], false) := by decide

/-- V-R3. -/
theorem test_load_res_range : answerOf (exec (.loadRes 65535 0) blank) = some ⟨4, 0⟩ := by decide

/-- V-R4: a tie between k = 1, 2 and 3. -/
theorem test_rice_choose : answerOf (exec (.riceChoose 30 0 4) (loaded [2, 2, 2, 2])) = some ⟨0, 0x1001⟩ := by
  decide +kernel

/-- V-R9: RICE_PARAM is checked first. -/
theorem test_rice_choose_param : answerOf (exec (.riceChoose 31 0 0) blank) = some ⟨7, 0⟩ := by decide

/-- V-R14: residuals 3 and -2 with k = 0. -/
theorem test_rice_encode :
    outOf (exec (.riceEncode 0 0 2) (loaded [3, -2])) =
      some [false, false, false, false, false, false, true, false, false, false, true] := by decide

/-- V-R16: the cost is `2^32` bits. -/
theorem test_rice_encode_capacity : answerOf (exec (.riceEncode 0 0 1) (loaded [-2 ^ 31])) = some ⟨5, 0⟩ := by
  decide +kernel

/-- V-P5: method 1, because k = 20. -/
theorem test_rice_partition :
    answerOf (exec (.ricePartition 0 2 0 4) (loaded [2 ^ 20, -2 ^ 20, 2 ^ 20 + 5, -1048583])) = some ⟨0, 0x6610⟩ := by
  decide +kernel

/-- V-P9: no legal order in 2..3. -/
theorem test_rice_partition_order :
    answerOf (exec (.ricePartition 2 3 0 6) (loaded [1, 1, 1, 1, 1, 1])) = some ⟨8, 0⟩ := by decide

/-- V-P7: the section `00 08`. -/
theorem test_rice_emit : outOf (exec .riceEmit chosen) = some (zeros 12 ++ [true]) := by decide

/-- V-R18. -/
theorem test_rice_emit_state : answerOf (exec .riceEmit blank) = some ⟨2, 0⟩ := by decide

/-- V-R22. -/
theorem test_read_ktab : answerOf (exec (.readKtab 0) { chosen with ktab := [(0, 3)] }) = some ⟨0, 3⟩ := by decide

/-- V-R23. -/
theorem test_read_ktab_range : answerOf (exec (.readKtab 1) chosen) = some ⟨4, 0⟩ := by decide

/-- V-H1: `FF F8 69 18 00 00 BF`. -/
theorem test_frame_header :
    outOf (exec (.frameHeader 0 1 44100 1 16 0) State.reset) =
      some (bytesToBits [0xFF, 0xF8, 0x69, 0x18, 0x00, 0x00, 0xBF]) := by decide +kernel

/-- V-F19: RATE is the first of five checks that fail. -/
theorem test_frame_header_order : answerOf (exec (.frameHeader 0 0 7999 2 3 1) State.reset) = some ⟨10, 0⟩ := by decide

/-- V-S1. -/
theorem test_seq_set :
    (stateOf (exec (.seqSet 1 10) State.reset)).map (fun t => (t.seqStrat, t.seqNext)) = some (1, 10) := by decide

/-- V-S5. -/
theorem test_seq_set_sequence : answerOf (exec (.seqSet 1 0x80000000) State.reset) = some ⟨13, 0⟩ := by decide

/-! ### The step, the check value, the reader -/

/-- V-D1 and V-D11. -/
theorem test_step_illegal :
    answerOf (step (blank.present ⟨0x40000000, 0⟩)) = some ⟨3, 0⟩ ∧
      answerOf (step (stuck.present ⟨0x40000000, 0⟩)) = some ⟨4, 0⟩ := by decide

/-- 10_state.md R25. -/
theorem test_uninit_res : answerOf (exec (.riceChoose 0 0 2) (loaded [2])) = none := by decide

/-- V-C1. -/
theorem test_crc8 : crc8 [0x31, 0x32, 0x33, 0x34, 0x35, 0x36, 0x37, 0x38, 0x39] = 0xF4 := by decide +kernel

/-- V-P4's partition 0, read from its fields: k = 7, residuals 100 and -100. -/
theorem test_reader :
    readResiduals 7 2 [false, true, true, false, false, true, false, false, false,
      false, true, true, false, false, false, true, true, true] = some ([100, -100], []) := by decide

/-- A run of two inputs: V-B1, and the reset event. -/
theorem test_run :
    (stateOf (runFromReset ⟨16⟩ [.command ⟨0x08000003, 5⟩, .reset])).map State.observe =
      some ⟨[⟨0, 3⟩], { blank with responses := [⟨0, 3⟩] }⟩ := by decide

/-- 60_exceptions.md R235: the rows of the errors with two codes. -/
theorem test_snd_errors :
    SndError.configurationError.codes.map FaultCode.code = [10, 11] ∧
      SndError.internalOverflow.codes.map FaultCode.code = [1, 5] := by decide

/-- 30_encoding.md R80. -/
theorem test_pseudo :
    expandPseudo (.putSigned 8 (-1)) = some [.writeBits 8 255] ∧ expandPseudo (.writeZeros 64) = some [.writeBits 64 0] ∧
      expandPseudo (.writeZeros 0) = none ∧ expandPseudo (.writeZeros 65) = none := by decide

/-! ### Witnesses: for each statement with hypotheses, concrete values that meet them, clause by clause -/

/-- A state that meets the invariant with RP_VALID set, so that no clause of it is empty. -/
theorem chosen_inv : chosen.Inv where
  config := by decide
  capacity := by decide
  finished := by decide
  res_wf := by decide
  res_depth := by decide
  ktab_wf := by decide
  ktab_depth := by decide
  rcK := by decide
  rcCost := by decide
  rpCost := by decide
  seqStrat := by decide
  seqFixed := by decide
  seqNext := by decide
  hdrLen := by decide
  fault := by decide
  partition _ := { legal := by decide, params := by decide, section_cost := ⟨[1], by decide, by decide⟩ }

theorem chosenTwo_inv : chosenTwo.Inv where
  config := by decide
  capacity := by decide
  finished := by decide
  res_wf := by decide
  res_depth := by decide
  ktab_wf := by decide
  ktab_depth := by decide
  rcK := by decide
  rcCost := by decide
  rpCost := by decide
  seqStrat := by decide
  seqFixed := by decide
  seqNext := by decide
  hdrLen := by decide
  fault := by decide
  partition _ := { legal := by decide, params := by decide, section_cost := ⟨[1, 1], by decide, by decide⟩ }

/-- The longest buffer of `blank`: 16 complete bytes and 7 pending bits. -/
def fullest : State := holding (zeros 135)

theorem fullest_inv : fullest.Inv where
  config := by decide
  capacity := by simp only [fullest, holding, State.outLen, State.bitLen, zeros, List.length_replicate]; decide
  finished := by intro h; cases h
  res_wf := by decide
  res_depth := by decide
  ktab_wf := by decide
  ktab_depth := by decide
  rcK := by decide
  rcCost := by decide
  rpCost := by decide
  seqStrat := by decide
  seqFixed := by decide
  seqNext := by decide
  hdrLen := by decide
  fault := by decide
  partition h := by cases h

theorem witness_EncodeDecodeAgree : decode ⟨0x08000040, 0x8000000000000001⟩ = .ok (.writeBits 64 0x8000000000000001) := by
  decide

theorem witness_DecodeIsRowMatch :
    ∃ r, opcodeTable[14]? = some r ∧ 0x38AC4410#32 &&& r.mask = r.pattern ∧ 0x100001000000000#64 &&& r.argZero = 0 :=
  ⟨_, rfl, by decide, by decide⟩

theorem witness_AssemblerKeepsOperands : (AsmLine.loadRes 65535 (-2 ^ 31)).wellFormed = true := by decide

theorem witness_StepRunsDecodedCommand :
    (blank.present ⟨0x14000000, 0⟩).inputs = .command ⟨0x14000000, 0⟩ :: [] ∧ decode ⟨0x14000000, 0⟩ = .ok .finish := by
  decide

/-- A reserved opcode, at both ends of the range. -/
theorem witness_IllegalTransaction_opcode :
    0x10 ≤ (opcodeOf 0x40000000#32).toNat ∧ 0x10 ≤ (opcodeOf 0xFC000000#32).toNat ∧ blank.fault = 0 ∧ stuck.fault ≠ 0 := by
  decide

/-- A reserved bit of `CMD`, and a reserved bit of `ARG`. -/
theorem witness_IllegalTransaction_bits :
    (∃ r ∈ opcodeTable, opcodeOf r.pattern = opcodeOf 0x38AC4404#32 ∧
      0x38AC4404#32 &&& ~~~ 0xFC000000#32 &&& r.mask ≠ 0) ∧
    ∃ r ∈ opcodeTable, opcodeOf r.pattern = opcodeOf 0x00000000#32 ∧ 0x8000000000000000#64 &&& r.argZero ≠ 0 := by
  decide

theorem witness_IdleKeepsState : chosen.inputs = [] := by decide

theorem witness_ResetEvent : ({ stuck with inputs := [.reset] } : State).inputs = .reset :: [] := by decide

theorem witness_StepKeepsInvariant :
    chosen.Inv ∧ ∃ t, step chosen = .next t := ⟨chosen_inv, _, rfl⟩

theorem witness_ProjectionsFitTheirRegisters : chosen.Inv ∧ fullest.Inv := ⟨chosen_inv, fullest_inv⟩

/-- A suppressed command; each read at the last register, byte and parameter, and at the first number beyond. -/
theorem witness_SuppressedWhileFaulted :
    stuck.fault ≠ 0 ∧ isRead .clear = false ∧ (stuck.register 0x0E).isSome = true ∧ stuck.register 0x0F = none ∧
      0 < stuck.outLen ∧ stuck.outLen ≤ 1 ∧ stuck.rpValid = true ∧ 0 < 2 ^ stuck.rpOrder.toNat ∧
      2 ^ stuck.rpOrder.toNat ≤ 1 := by decide

theorem witness_FaultsAreAllOrNothing :
    ∃ t, step (blank.present ⟨0x08000000, 0⟩) = .next t ∧ t.fault ≠ (blank.present ⟨0x08000000, 0⟩).fault :=
  ⟨_, rfl, by decide⟩

theorem witness_FaultIsStickyUntilReset_reset :
    stuck.fault ≠ 0 ∧ ∃ t, step { stuck with inputs := [.reset] } = .next t := ⟨by decide, _, rfl⟩

theorem witness_FaultIsStickyUntilReset_command :
    stuck.fault ≠ 0 ∧ ∃ t, step (stuck.present ⟨0xFC000000, 0⟩) = .next t := ⟨by decide, _, rfl⟩

/-- A read that completes, a read that faults, and a read while FAULT is nonzero. -/
theorem witness_ReadsHaveNoSideEffects :
    isRead (.readOut 0) = true ∧ (∃ t, exec (.readOut 0) (holding (zeros 8)) = .next t) ∧
      (∃ t, exec (.readOut 0) blank = .next t ∧ t.fault = 4) ∧ stuck.fault ≠ 0 ∧ ∃ t, exec (.readOut 0) stuck = .next t :=
  ⟨rfl, ⟨_, rfl⟩, ⟨_, rfl, by decide⟩, by decide, _, rfl⟩

/-- A command that appends after a complete byte, and a CLEAR. -/
theorem witness_CompleteBytesNeverChange :
    (∃ t, exec .align (holding (zeros 9)) = .next t) ∧ 0 < (holding (zeros 9)).outLen ∧ Instr.align ≠ .clear ∧
      ∃ t, exec .clear (holding (zeros 9)) = .next t := ⟨⟨_, rfl⟩, by decide, by decide, _, rfl⟩

/-- NOP is none of the commands a register names. -/
theorem witness_OnlyNamedCommands :
    (∃ t, exec .nop chosen = .next t) ∧ appends .nop = false ∧ Instr.nop ≠ .clear ∧ Instr.nop ≠ .finish :=
  ⟨⟨_, rfl⟩, rfl, by decide, by decide⟩

theorem witness_UninitRes_load : ∃ t, exec (.loadRes 65534 5) blank = .next t ∧ t.fault = 0 := ⟨_, rfl, by decide⟩

theorem witness_UninitRes_stops : exec (.riceChoose 0 0 1) blank = .fault .uninitRes := rfl

/-- The commands that do not append, in a finished buffer: the last entry of the table, and the smallest block. -/
theorem witness_UninitRes_finished :
    closed.fault = 0 ∧ closed.wstate = .finished ∧ closed.res.read (65534 + 0) = none ∧
      residualRange (.riceChoose 30 65534 1) closed = some (65534, 1) ∧ closed.res.read (0 + 0) = none ∧
      residualRange (.ricePartition 0 15 32 33) closed = some (0, 1) ∧
      (0 ≤ 0 ∧ 0 ≤ 15 ∧ 33 % 2 ^ 0 = 0 ∧ 32 < 33 >>> 0) := by decide

/-- The commands that append, in an open buffer. -/
theorem witness_UninitRes_opened :
    blank.fault = 0 ∧ blank.wstate = .opened ∧ blank.res.read (65534 + 0) = none ∧
      residualRange (.riceEncode 30 65534 1) blank = some (65534, 1) ∧
      ({ chosen with res := [] } : State).fault = 0 ∧ ({ chosen with res := [] } : State).wstate = .opened ∧
      ({ chosen with res := [] } : State).rpValid = true ∧ ({ chosen with res := [] } : State).res.read (0 + 0) = none ∧
      residualRange .riceEmit { chosen with res := [] } = some (0, 1) := by decide

theorem witness_NopRule : (0x8000000000000000 : BitVec 64) ≠ 0 := by decide

/-- The first and last register, and the first number beyond. -/
theorem witness_ReadRegRule :
    blank.out.length < 2 ^ 35 ∧ (0x0E#8).toNat ≤ 0x0E ∧ 0x0E < (0x0F#8).toNat ∧ blank.fault = 0 ∧ stuck.fault ≠ 0 := by decide

/-- The last complete byte, and the byte after it. -/
theorem witness_ReadOutRule :
    (1#32).toNat < (holding (zeros 23)).out.length / 8 ∧ (holding (zeros 23)).out.length / 8 ≤ (2#32).toNat ∧
      blank.fault = 0 ∧ stuck.fault ≠ 0 ∧ stuck.out.length / 8 ≤ (1#32).toNat := by decide

/-- The last bit of the last complete byte; the last of 7 pending bits, and the first bit above them. -/
theorem witness_OutByteBits :
    1 < (holding (zeros 23)).out.length / 8 ∧ 7 < 8 ∧ 6 < (holding (zeros 23)).out.length % 8 ∧
      (holding (zeros 23)).out.length % 8 ≤ 7 := by decide

theorem witness_BitsOf : (63 : Nat) < 64 := by decide

theorem witness_WriteBits_faults :
    blank.fault = 0 ∧ closed.wstate = .finished ∧ blank.wstate = .opened ∧ ((0#7).toNat = 0 ∨ 64 < (0#7).toNat) ∧
      ((65#7).toNat = 0 ∨ 64 < (65#7).toNat) ∧ 1 ≤ (1#7).toNat ∧ (64#7).toNat ≤ 64 ∧
      2 ^ (4#7).toNat ≤ (16#64).toNat := by decide

/-- Width 64 with the largest value, and the capacity edge: 128 bits and 8, or 7, more. -/
theorem witness_WriteBits_completes :
    (64#7).toNat ≤ 64 ∧ (0xFFFFFFFFFFFFFFFF#64).toNat < 2 ^ (64#7).toNat ∧ blank.config.outCap.toNat < (128 + 8) / 8 ∧
      (128 + 7) / 8 ≤ blank.config.outCap.toNat := by decide

theorem witness_WriteUnary :
    blank.fault = 0 ∧ closed.wstate = .finished ∧ blank.wstate = .opened ∧
      blank.config.outCap.toNat < (blank.out.length + ((135#64).toNat + 1)) / 8 ∧
      (blank.out.length + ((134#64).toNat + 1)) / 8 ≤ blank.config.outCap.toNat := by decide

/-- 129 bits do not fit when padded; 121 bits do. ALIGN and FINISH alike. -/
theorem witness_Align_Finish :
    closed.fault = 0 ∧ closed.wstate = .finished ∧ appends .riceEmit = true ∧ blank.wstate = .opened ∧
      blank.config.outCap.toNat < (129 + (8 - 129 % 8) % 8) / 8 ∧
      (121 + (8 - 121 % 8) % 8) / 8 ≤ blank.config.outCap.toNat := by decide

theorem witness_ClearRule : closed.fault = 0 := by decide

theorem witness_WriteBitsSplits :
    blank.fault = 0 ∧ (64#7).toNat = (1#7).toNat + (63#7).toNat ∧
      ∃ t, exec (.writeBits 64 0xFFFFFFFFFFFFFFFF) blank = .next t ∧ t.fault = 0 :=
  ⟨by decide, by decide, _, rfl, by decide⟩

theorem witness_UnaryIsWriteBits : (63#64).toNat ≤ 63 ∧ (64#7).toNat = (63#64).toNat + 1 := by decide

theorem witness_WholeBytesLandBigEndian :
    blank.pbits = 0 ∧ (64#7).toNat = 8 * 8 ∧ 7 < 8 ∧ ∃ t, exec (.writeBits 64 1) blank = .next t ∧ t.fault = 0 :=
  ⟨by decide, by decide, by decide, _, rfl, by decide⟩

theorem witness_LoadRes : blank.fault = 0 ∧ (65535#16).toNat = 65535 ∧ (65534#16).toNat < 65535 := by decide

theorem witness_Fold : (-2 ^ 31 : Int) ≤ -2 ^ 31 ∧ (2 ^ 31 - 1 : Int) ≤ 2 ^ 31 - 1 ∧ (2 ^ 32 - 1 : Nat) ≤ 2 ^ 32 - 1 := by
  decide

/-- RICE_CHOOSE and RICE_ENCODE: each fault, and the last entry of the table with the largest parameter. -/
theorem witness_RiceChoose_Encode :
    lastLoaded.fault = 0 ∧ closed.wstate = .finished ∧ lastLoaded.wstate = .opened ∧ 30 < (31#5).toNat ∧ (30#5).toNat ≤ 30 ∧
      (0#16).toNat = 0 ∧ 65535 < (65535#16).toNat + (1#16).toNat ∧ (65534#16).toNat + (1#16).toNat ≤ 65535 ∧
      lastLoaded.holdsResiduals (65534#16).toNat (1#16).toNat fun _ => 2 := by decide

/-- The cost of residual 2 with k = 0 is 5 bits; 131 bits and 5 more do not fit, 130 and 5 do. -/
theorem witness_RiceEncode_capacity :
    ((foldedResiduals 1 fun _ => 2).map fun u => (u >>> 0) + 1 + 0).sum = 5 ∧
      lastLoaded.config.outCap.toNat < (131 + 5) / 8 ∧ (130 + 5) / 8 ≤ lastLoaded.config.outCap.toNat := by decide

theorem witness_PartitionsTileTheBlock : legalOrder 32768 0 15 ∧ legalOrder 33 32 0 ∧ [0].length = 33 - 32 := by decide

theorem witness_RicePartitionFaults :
    blank.fault = 0 ∧ (0#16).toNat = 0 ∧ 32 < (33#6).toNat ∧ (32#6).toNat ≤ 32 ∧ (32#16).toNat ≤ (32#6).toNat ∧
      (32#6).toNat < (33#16).toNat ∧ (0#4).toNat < (1#4).toNat ∧
      ∀ p ≤ 1, 1 ≤ p → ¬ (p ≤ 15 ∧ (33#16).toNat % 2 ^ p = 0 ∧ (32#6).toNat < (33#16).toNat >>> p) := by decide

theorem witness_RicePartitionIsExactOptimum :
    (loaded [7]).fault = 0 ∧ (32#6).toNat ≤ 32 ∧ (32#6).toNat < (33#16).toNat ∧
      (∃ p ≤ 15, (0#4).toNat ≤ p ∧ p ≤ (15#4).toNat ∧
        p ≤ 15 ∧ (33#16).toNat % 2 ^ p = 0 ∧ (32#6).toNat < (33#16).toNat >>> p) ∧
      (loaded [7]).holdsResiduals 0 ((33#16).toNat - (32#6).toNat) fun _ => 7 := by decide

/-- Its last clause: both methods, with a parameter at its largest, and an order of the range that R137 makes legal. -/
theorem witness_RicePartitionIsExactOptimum_alternative :
    (0 ≤ 1 ∧ (0#4).toNat ≤ 0 ∧ 0 ≤ (15#4).toNat ∧ 33 % 2 ^ 0 = 0 ∧ ∀ j < 2 ^ 0, (fun _ : Nat => 14) j ≤ 14) ∧
      1 ≤ 1 ∧ ∀ j < 2 ^ 0, (fun _ : Nat => 30) j ≤ 30 := by decide

theorem witness_PackedResponses :
    (∃ t, exec (.riceChoose 0 0 1) (loaded [2]) = .next t ∧ t.fault = 0) ∧
      ∃ t, exec (.ricePartition 0 0 0 1) (loaded [2]) = .next t ∧ t.fault = 0 :=
  ⟨⟨_, rfl, by decide⟩, _, rfl, by decide⟩

theorem witness_RiceEmit_faults :
    blank.fault = 0 ∧ closed.wstate = .finished ∧ blank.wstate = .opened ∧ blank.rpValid = false := by decide

/-- The section is 13 bits; 123 bits and 13 more do not fit, 122 and 13 do. -/
theorem witness_RiceEmit_completes :
    chosen.fault = 0 ∧ chosen.wstate = .opened ∧ chosen.rpValid = true ∧
      (chosen.holdsResiduals 0 (chosen.rpBlockSize.toNat - chosen.rpPred.toNat) fun _ => 1) ∧
      chosen.config.outCap.toNat < (123 + 13) / 8 ∧ (122 + 13) / 8 ≤ chosen.config.outCap.toNat := by decide

theorem witness_EmitLengthIsRpCost :
    chosenTwo.Inv ∧ chosenTwo.fault = 0 ∧ chosenTwo.wstate = .opened ∧ chosenTwo.rpValid = true :=
  ⟨chosenTwo_inv, by decide, by decide, by decide⟩

theorem witness_EmittedSectionReadsBack :
    chosenTwo.Inv ∧ chosenTwo.rpValid = true ∧ ∃ t, exec .riceEmit chosenTwo = .next t ∧ t.fault = 0 :=
  ⟨chosenTwo_inv, by decide, _, rfl, by decide⟩

/-- The last defined parameter and the index after it; no choice; FAULT zero and not. -/
theorem witness_ReadKtab :
    blank.rpValid = false ∧ blank.fault = 0 ∧ chosenTwo.rpValid = true ∧ chosenTwo.fault = 0 ∧
      2 ^ chosenTwo.rpOrder.toNat ≤ (2#15).toNat ∧ (1#15).toNat < 2 ^ chosenTwo.rpOrder.toNat ∧ stuck.fault ≠ 0 ∧
      2 ^ stuck.rpOrder.toNat ≤ (1#15).toNat := by decide

theorem witness_EmitAfterLoad :
    chosen.wstate = .opened ∧ ∃ t, exec (.loadRes 0 3) chosen = .next t ∧ t.fault = 0 := ⟨by decide, _, rfl, by decide⟩

/-- A size of each row of the table, and both uncommon rows at their edges. -/
theorem witness_BlockSizeCodes :
    (4608 = 576 * 2 ^ (5 - 2) ∧ 32768 = 256 * 2 ^ (15 - 8)) ∧ blockSizeCode 255 = 6 ∧ blockSizeCode 257 = 7 ∧
      blockSizeCode 65535 = 7 ∧ blockSizeCode 1 = 6 := by decide

/-- A rate of each uncommon row: a multiple of 1000, of 10 only, of neither at 65535 and above it. -/
theorem witness_SampleRateCodes :
    rateCode 191000 = 12 ∧ rateCode 191990 = 14 ∧ rateCode 65535 = 13 ∧ rateCode 65536 = 0 ∧ rateCode 191999 = 0 := by
  decide

theorem witness_BitDepthCodes : 4 ≤ 31 ∧ 31 ≤ 32 ∧ 31 ∉ [8, 12, 16, 20, 24, 32] ∧ 4 ∉ [8, 12, 16, 20, 24, 32] := by
  decide

/-- Both clauses at the edge between them, and at the largest number. -/
theorem witness_CodedNumberBytes : 127 < 2 ^ 7 ∧ 2 ^ 7 ≤ 128 ∧ 2 ^ 36 - 1 < 2 ^ 36 := by decide

theorem witness_HeaderCrc :
    ∃ t, exec (.frameHeader 0 4096 44100 0 16 0) State.reset = .next t ∧ t.fault = 0 := ⟨_, rfl, rfl⟩

/-- One state and operands for each code: the checks at their edges. -/
theorem witness_FrameHeaderFaults :
    blank.fault = 0 ∧ closed.wstate = .finished ∧ (holding (zeros 7)).out.length % 8 ≠ 0 ∧ (7999#18).toNat < 8000 ∧
      192000 < (192001#18).toNat ∧ (2#4).toNat ∉ [0, 1, 8, 9, 10] ∧ (11#4).toNat ∉ [0, 1, 8, 9, 10] ∧
      (0#16).toNat = 0 ∧ (3#6).toNat < 4 ∧ 32 < (33#6).toNat ∧ 2 ^ 31 ≤ (0x80000000#36).toNat ∧
      (1#36).toNat ≠ blank.seqNext.toNat := by decide

/-- The other two faults of the sequence and capacity checks: a strategy that changes, and 88 bits with a 6-byte header. -/
theorem witness_FrameHeaderFaults_last :
    (({ blank with seqStrat := 1 } : State).seqStrat ≠ 0 ∧
      ({ blank with seqStrat := 1 } : State).seqStrat.toNat ≠ (1#1).toNat + 1) ∧
      blank.config.outCap.toNat < (88 + 8 * (frameHeaderBytes 0 4096 44100 0 16 0).length) / 8 := by decide

/-- The largest rate, depth and block size, with variable blocking and the largest number. -/
theorem witness_FrameHeaderEffect :
    let s : State := { blank with seqStrat := 2, seqNext := 0xFFFFFFFFF }
    s.fault = 0 ∧ s.wstate = .opened ∧ s.out.length % 8 = 0 ∧ 8000 ≤ (192000#18).toNat ∧ (192000#18).toNat ≤ 192000 ∧
      (10#4).toNat ∈ [0, 1, 8, 9, 10] ∧ 1 ≤ (65535#16).toNat ∧ 4 ≤ (32#6).toNat ∧ (32#6).toNat ≤ 32 ∧
      ((1#1) = 0 → (0xFFFFFFFFF#36).toNat < 2 ^ 31) ∧ (s.seqStrat = 0 ∨ s.seqStrat.toNat = (1#1).toNat + 1) ∧
      (0xFFFFFFFFF#36).toNat = s.seqNext.toNat ∧ (s.out.length + 8 * 16) / 8 ≤ s.config.outCap.toNat := by decide

/-- Fixed blocking with the largest frame number, in a buffer with the least capacity. -/
theorem witness_HeaderAlwaysFits :
    let s : State := { blank with seqStrat := 1, seqNext := 0x7FFFFFFF }
    s.config.Legal ∧ s.out = [] ∧ ((0#1) = 0 → (0x7FFFFFFF#36).toNat < 2 ^ 31) ∧
      (s.seqStrat = 0 ∨ s.seqStrat.toNat = (0#1).toNat + 1) ∧ (0x7FFFFFFF#36).toNat = s.seqNext.toNat := by decide

/-- Two headers in a row: vector V-F13. -/
theorem witness_HeadersFollow :
    ∃ t u, exec (.frameHeader 0 4096 44100 0 16 0) State.reset = .next t ∧ t.fault = 0 ∧
      exec (.frameHeader 0 4096 44100 0 16 1) t = .next u ∧ u.fault = 0 := ⟨_, _, rfl, rfl, rfl, rfl⟩

theorem witness_SeqSet :
    blank.fault = 0 ∧ (3#2 : BitVec 2) = 3 ∧ 2 ^ 31 ≤ (0x80000000#36).toNat ∧ (2#2 : BitVec 2) ≠ 3 ∧
      (0x7FFFFFFF#36).toNat < 2 ^ 31 := by decide

end Sys2Proof.Tests
end

section
/-! PROOFS. The step's equations, and the statements of 00_scope.md. -/

namespace Sys2Proof.Machine

theorem State.nextInput_of_cons {s : State} {input : HostInput} {rest : List HostInput}
    (hin : s.inputs = input :: rest) : s.nextInput = some (input, { s with inputs := rest }) := by
  unfold State.nextInput
  rw [hin]

/-- The arm of `step` for a legal transaction; the checks of FAULT are `exec`'s own. -/
theorem step_of_decode_ok {s : State} {tx : Transaction} {rest : List HostInput} {i : Instr}
    (hin : s.inputs = .command tx :: rest) (hdec : decode tx = .ok i) : step s = exec i { s with inputs := rest } := by
  unfold step
  rw [State.nextInput_of_cons hin]
  simp only [hdec]

/-- Settles O6: the waiting transaction is the input taken, and its decoding selects the arm that runs the command. -/
theorem stepRunsDecodedCommand : Obligations.StepRunsDecodedCommand := by
  intro s tx rest i hin hdec
  exact step_of_decode_ok hin hdec

/-- Settles O26, from the two laws of `bitsOf`: its length and its bit at each place. -/
theorem bitsOfIsMostSignificantFirst : Obligations.BitsOfIsMostSignificantFirst := by
  intro v w
  exact ⟨length_bitsOf v w, fun i hi => getElem?_bitsOf v w i hi⟩

end Sys2Proof.Machine
end

section
/-! PROOFS. The invariant (10_state.md R41): it holds at reset, each update of the state keeps it under that update's
own conditions, and so every step does. -/

namespace Sys2Proof.Machine

variable {s t : State}

theorem toNat_ofNat_of_lt {w n : Nat} (h : n < 2 ^ w) : (BitVec.ofNat w n).toNat = n := by
  rw [BitVec.toNat_ofNat, Nat.mod_eq_of_lt h]

/-! ### What `RP_VALID` promises -/

/-- All of the state that `State.PartitionOk` speaks of: RES, and what RICE_PARTITION writes (10_state.md R29). -/
def State.partitionView (s : State) :
    Memory 32 × Memory 5 × BitVec 1 × BitVec 4 × BitVec 64 × BitVec 16 × BitVec 6 :=
  (s.res, s.ktab, s.rpMethod, s.rpOrder, s.rpCost, s.rpBlockSize, s.rpPred)

theorem State.PartitionOk.of_view_eq (h : s.PartitionOk) (e : t.partitionView = s.partitionView) : t.PartitionOk := by
  simp only [State.partitionView, Prod.mk.injEq] at e
  obtain ⟨hres, hktab, hmethod, horder, hcost, hsize, hpred⟩ := e
  obtain ⟨legal, params, section_cost⟩ := h
  refine ⟨?_, ?_, ?_⟩
  · rwa [hsize, hpred, horder]
  · simpa only [State.ktabEntry, hktab, horder, hmethod] using params
  · simpa only [State.sectionLength, State.ktabEntry, hres, hktab, hmethod, horder, hcost, hsize, hpred]
      using section_cost

/-- What RICE_PARTITION chooses among legal orders is the candidate of a method and a legal order. -/
theorem choosePartition_eq_candidate {bs pred pmin pmax p : Nat} {ps : List Nat}
    (hp : legalOrders bs pred pmin pmax = p :: ps) (us : List Nat) :
    ∃ m q, m ≤ 1 ∧ legalOrder bs pred q ∧ choosePartition bs pred us p ps = candidate bs pred us m q := by
  obtain ⟨m, q, hm, hq, he, -⟩ := choosePartition_spec bs pred us p ps (hp ▸ legalOrders_sorted bs pred pmin pmax)
  exact ⟨m, q, hm, (mem_legalOrders.mp (hp ▸ hq)).2.2, he⟩

@[simp] theorem candidate_method (bs pred : Nat) (us : List Nat) (m p : Nat) :
    (candidate bs pred us m p).1.method = m := rfl

@[simp] theorem candidate_order (bs pred : Nat) (us : List Nat) (m p : Nat) :
    (candidate bs pred us m p).1.order = p := rfl

theorem methodBits_le (m : Nat) : methodBits m ≤ 5 := by
  unfold methodBits; split <;> omega

/-- A candidate is no dearer than its section with every parameter 0, which 41_rice.md R141 bounds. -/
theorem candidate_cost_lt {bs pred q : Nat} {us : List Nat} (m : Nat) (hq : legalOrder bs pred q) (hbs : bs < 2 ^ 16)
    (hlen : us.length = bs - pred) (hus : ∀ u ∈ us, u < 2 ^ 32) : (candidate bs pred us m q).2 < 2 ^ 49 := by
  have hzero := candidate_cost_le bs pred us m q (fun _ => 0) fun _ _ => Nat.zero_le _
  simp only [sectionCost, sum_map_const_add, ← riceCost_flatMap, partitions_cover hq us hlen, List.length_range]
    at hzero
  have hfields : 2 ^ q * methodBits m ≤ 2 ^ 15 * 5 :=
    Nat.mul_le_mul (Nat.pow_le_pow_right (by decide) hq.1) (methodBits_le m)
  have hcodes := riceCost_zero_le us hus
  omega

/-- The parameter RICE_PARTITION stores for a partition is the best one of its slice. -/
theorem withPartition_ktabEntry {m q j : Nat} (us : List Nat) (bs : BitVec 16) (pred : BitVec 6) (hj : j < 2 ^ q) :
    let c := candidate bs.toNat pred.toNat us m q
    ((s.withPartition c.1 c.2 bs pred).ktabEntry j).toNat =
      (bestParameter (methodKmax m) (partitionSlice bs.toNat pred.toNat q j us)).1 := by
  have hk := (bestParameter_spec (methodKmax m) (partitionSlice bs.toNat pred.toNat q j us)).1
  have hmax := methodKmax_le m
  simp only [State.ktabEntry, State.withPartition_ktab]
  rw [Memory.read_writeLow_lt _ _ _ (by simpa using hj), List.getElem?_map, candidate_params _ _ _ _ _ _ hj]
  exact toNat_ofNat_of_lt (by omega)

/-- The registers RICE_PARTITION writes for a candidate of a legal order keep what `RP_VALID` promises. -/
theorem withPartition_partitionOk {m q : Nat} {bs : BitVec 16} {pred : BitVec 6} {words : List (BitVec 32)}
    (hm : m ≤ 1) (hq : legalOrder bs.toNat pred.toNat q)
    (hw : s.res.readRange 0 (bs.toNat - pred.toNat) = some words) :
    let c := candidate bs.toNat pred.toNat ((words.map sext32).map fold) m q
    (s.withPartition c.1 c.2 bs pred).PartitionOk := by
  have hlen : ((words.map sext32).map fold).length = bs.toNat - pred.toNat := by
    simpa using ((Memory.readRange_eq_some_iff _ _ _ _).mp hw).1
  have hcost := candidate_cost_lt m hq bs.isLt hlen (fold_words_lt words)
  have hmethod : (BitVec.ofNat 1 m).toNat = m := toNat_ofNat_of_lt (by omega)
  have horder : (BitVec.ofNat 4 q).toNat = q := toNat_ofNat_of_lt (by have := hq.1; omega)
  refine ⟨?_, fun j hj => ?_, words, hw, ?_⟩
  · simpa only [State.withPartition_rpBlockSize, State.withPartition_rpPred, State.withPartition_rpOrder,
      candidate_order, horder] using hq
  · simp only [State.withPartition_rpOrder, State.withPartition_rpMethod, candidate_order, candidate_method, horder,
      hmethod] at hj ⊢
    rw [withPartition_ktabEntry _ _ _ hj]
    exact (bestParameter_spec _ _).1
  · have hmap : (words.map fun w => fold (sext32 w)) = (words.map sext32).map fold := by simp
    simp only [hmap, State.sectionLength, State.withPartition_rpCost, State.withPartition_rpMethod,
      State.withPartition_rpOrder, State.withPartition_rpBlockSize, State.withPartition_rpPred, candidate_order,
      candidate_method, hmethod, horder]
    rw [toNat_ofNat_of_lt (by omega)]
    exact candidate_cost _ _ _ _ _ _ fun j hj => withPartition_ktabEntry _ _ _ hj

/-! ### The updates of the state -/

theorem State.Inv.withInputs (h : s.Inv) (rest : List HostInput) : ({ s with inputs := rest } : State).Inv :=
  { h with partition := fun hv => (h.partition hv).of_view_eq rfl }

theorem State.Inv.answered (h : s.Inv) (v : BitVec 64) : (s.answered v).Inv :=
  { h with partition := fun hv => (h.partition hv).of_view_eq rfl }

theorem State.Inv.faulted (h : s.Inv) {c : FaultCode} (hc : c ≠ .crc) : (s.faulted c.code).Inv :=
  { h with
    fault := (FaultCode.code_bounds hc).2
    partition := fun hv => (h.partition hv).of_view_eq rfl }

theorem reset_inv : State.reset.Inv where
  config := by decide
  capacity := by decide
  finished := by decide
  res_wf := List.Pairwise.nil
  res_depth := by simp [State.reset]
  ktab_wf := List.Pairwise.nil
  ktab_depth := by simp [State.reset]
  rcK := by decide
  rcCost := by decide
  rpCost := by decide
  seqStrat := by decide
  seqFixed := by decide
  seqNext := by decide
  hdrLen := .inl rfl
  fault := by decide
  partition := by simp [State.reset]

/-- The reset event keeps the parameter only, so that its capacity is all it needs. -/
theorem State.Inv.afterReset (h : s.config.Legal) : s.afterReset.Inv :=
  { reset_inv with
    config := h
    capacity := by simp [State.outLen, State.bitLen, State.reset]
    partition := by simp [State.reset] }

theorem State.Inv.cleared (h : s.Inv) : ({ s with out := [], wstate := .opened } : State).Inv :=
  { h with
    capacity := by simp [State.outLen, State.bitLen]
    finished := by simp
    partition := fun hv => (h.partition hv).of_view_eq rfl }

/-- `Append` within the capacity: in an open buffer, or with whole bytes left (20_memory.md R52). -/
theorem State.Inv.appended (h : s.Inv) {bits : Bits} {ws : WState} (hc : ¬ s.exceedsCapacity bits.length)
    (hw : ws = .opened ∨ (s.bitLen + bits.length) % 8 = 0) :
    ({ s with out := s.out ++ bits, wstate := ws } : State).Inv :=
  { h with
    capacity := by simpa [State.outLen, State.bitLen] using hc
    finished := fun hf => by
      have hbytes := hw.resolve_left fun ho => by simp [ho] at hf
      simpa [State.pbits, State.bitLen] using hbytes
    partition := fun hv => (h.partition hv).of_view_eq rfl }

/-- An appending command that completes found the buffer open. -/
theorem State.Inv.of_appended (h : s.Inv) {bits : Bits} (hopen : s.wstate = .opened) (ha : Appended s t bits) :
    t.Inv := by
  obtain ⟨hc, rfl⟩ := ha
  exact (h.appended hc (.inl hopen)).answered _

theorem State.Inv.withResidual (h : s.Inv) {i : Nat} (v : BitVec 32) (hi : i < resDepth) :
    ({ s with res := s.res.write i v, rpValid := false } : State).Inv :=
  { h with
    res_wf := Memory.wf_write h.res_wf _ _
    res_depth := fun cell hcell => by
      rcases Memory.mem_write hcell with rfl | hold
      · exact hi
      · exact h.res_depth cell hold
    partition := by simp }

/-- The best parameter up to 30 and its cost, within their registers' ranges (41_rice.md R134, R141). -/
theorem State.Inv.withBest (h : s.Inv) {kmax : Nat} {us : List Nat} (hk : kmax ≤ 30) (hlen : us.length < 2 ^ 16)
    (hus : ∀ u ∈ us, u < 2 ^ 32) :
    ({ s with rcK := BitVec.ofNat 5 (bestParameter kmax us).1, rcCost := BitVec.ofNat 64 (bestParameter kmax us).2 } :
      State).Inv := by
  obtain ⟨hbest, hcost, hleast, -⟩ := bestParameter_spec kmax us
  have hzero := hleast 0 (Nat.zero_le _)
  have hbound := riceCost_zero_le us hus
  exact
    { h with
      rcK := le_trans (Nat.mod_le _ _) (hbest.trans hk)
      rcCost := lt_of_le_of_lt (Nat.mod_le _ _) (by omega)
      partition := fun hv => (h.partition hv).of_view_eq rfl }

theorem State.Inv.withPartition (h : s.Inv) {m q : Nat} {bs : BitVec 16} {pred : BitVec 6}
    {words : List (BitVec 32)} (hm : m ≤ 1) (hq : legalOrder bs.toNat pred.toNat q)
    (hw : s.res.readRange 0 (bs.toNat - pred.toNat) = some words) :
    let c := candidate bs.toNat pred.toNat ((words.map sext32).map fold) m q
    (s.withPartition c.1 c.2 bs pred).Inv := by
  have hlen : ((words.map sext32).map fold).length = bs.toNat - pred.toNat := by
    simpa using ((Memory.readRange_eq_some_iff _ _ _ _).mp hw).1
  have hcost := candidate_cost_lt m hq bs.isLt hlen (fold_words_lt words)
  have hcells : 2 ^ q ≤ 2 ^ 15 := Nat.pow_le_pow_right (by decide) hq.1
  exact
    { h with
      ktab_wf := Memory.wf_writeLow h.ktab_wf _
      ktab_depth := fun cell hcell => by
        rcases Memory.mem_writeLow hcell with hnew | hold
        · rw [List.length_map, length_candidate_params] at hnew; omega
        · exact h.ktab_depth cell hold
      rpCost := lt_of_le_of_lt (Nat.mod_le _ _) hcost
      partition := fun _ => withPartition_partitionOk hm hq hw }

/-- The sequence registers after a header: the next frame number is at most `2^31`, the next sample number below
`2^36 + 2^16`, so neither wraps (10_state.md R32, 42_frame_header.md R168). -/
theorem State.Inv.withHeader (h : s.Inv) {header : List Byte} {strat : BitVec 1} (bs : BitVec 16) {num : BitVec 36}
    (hlen : 6 ≤ header.length ∧ header.length ≤ 16) (hnum : strat = 0 → num.toNat < 2 ^ 31) :
    (s.withHeader header strat bs num).Inv := by
  have hlen' : (BitVec.ofNat 5 header.length).toNat = header.length := toNat_ofNat_of_lt (by omega)
  have hbs := bs.isLt
  have hnumlt := num.isLt
  have hstrat : ∀ b : BitVec 1, BitVec.ofNat 2 (b.toNat + 1) ≠ 3 ∧ (BitVec.ofNat 2 (b.toNat + 1) = 1 → b = 0) := by
    decide
  have hadd : (if strat = 0 then 1 else bs.toNat) < 2 ^ 16 := by split <;> omega
  exact
    { h with
      seqStrat := (hstrat strat).1
      seqFixed := fun hfixed => by
        have h0 := (hstrat strat).2 hfixed
        have hn := hnum h0
        refine le_trans (Nat.mod_le _ _) ?_
        rw [if_pos h0]
        omega
      seqNext := lt_of_le_of_lt (Nat.mod_le _ _) (by omega)
      hdrLen := .inr (by rw [State.withHeader_hdrLen, hlen']; exact hlen)
      partition := fun hv => (h.partition hv).of_view_eq rfl }

theorem State.Inv.withSequence (h : s.Inv) {sstrat : BitVec 2} {next : BitVec 36} (hs : sstrat.toNat ≤ 2)
    (hn : sstrat = 1 → next.toNat < 2 ^ 31) :
    ({ s with seqStrat := sstrat, seqNext := next.setWidth 37 } : State).Inv :=
  have hnext : (next.setWidth 37).toNat ≤ next.toNat := by
    rw [BitVec.toNat_setWidth]; exact Nat.mod_le _ _
  { h with
    seqStrat := by rintro rfl; exact absurd hs (by decide)
    seqFixed := fun hfixed => le_trans hnext (hn hfixed).le
    seqNext := by have := next.isLt; simp only; omega
    partition := fun hv => (h.partition hv).of_view_eq rfl }

/-! ### The commands and the step -/

theorem Effect.keeps_inv {i : Instr} (hi : s.Inv) (h : Effect i s t) : t.Inv := by
  cases i with
  | nop => cases h; exact hi.answered _
  | clear => cases h; exact hi.cleared.answered _
  | writeBits w v => obtain ⟨hopen, -, -, -, ha⟩ := h; exact hi.of_appended hopen ha
  | writeUnary n => obtain ⟨hopen, ha⟩ := h; exact hi.of_appended hopen ha
  | align => obtain ⟨hopen, ha⟩ := h; exact hi.of_appended hopen ha
  | finish =>
    obtain ⟨-, hc, rfl⟩ := h
    exact (hi.appended (by rwa [length_zeros]) (.inr (by rw [length_zeros]; exact (padLength_spec _).1))).answered _
  | readOut addr => obtain ⟨-, rfl⟩ := h; exact hi.answered _
  | readReg reg => obtain ⟨v, -, rfl⟩ := h; exact hi.answered _
  | loadRes idx val => obtain ⟨hidx, rfl⟩ := h; exact (hi.withResidual val hidx).answered _
  | riceChoose k start count =>
    obtain ⟨hk, -, -, words, hw, rfl⟩ := h
    have hlen := ((Memory.readRange_eq_some_iff _ _ _ _).mp hw).1
    exact (hi.withBest hk (by simpa [hlen] using count.isLt) (fold_words_lt words)).answered _
  | riceEncode k start count => obtain ⟨hopen, -, -, -, words, -, ha⟩ := h; exact hi.of_appended hopen ha
  | ricePartition pmin pmax pred bs =>
    obtain ⟨-, -, -, -, p, ps, words, hp, hw, rfl⟩ := h
    obtain ⟨m, q, hm, hq, hc⟩ := choosePartition_eq_candidate hp ((words.map sext32).map fold)
    simp only [hc]
    exact (hi.withPartition hm hq hw).answered _
  | riceEmit => obtain ⟨hopen, -, words, -, ha⟩ := h; exact hi.of_appended hopen ha
  | readKtab idx => obtain ⟨-, -, rfl⟩ := h; exact hi.answered _
  | frameHeader strat bs rate ch bps num =>
    obtain ⟨hopen, -, -, -, -, -, ⟨hnum, -, -⟩, hc, rfl⟩ := h
    have hlen := headerBody_length_bounds strat.toNat bs.toNat rate.toNat ch.toNat bps.toNat num.toNat
    have happ := hi.appended (by rwa [length_bytesToBits]) (.inl hopen)
    exact (happ.withHeader bs (by simpa [frameHeaderBytes] using hlen) hnum).answered _
  | seqSet sstrat next => obtain ⟨hs, hn, rfl⟩ := h; exact (hi.withSequence hs hn).answered _

theorem exec_keeps_inv {i : Instr} (hi : s.Inv) (h : exec i s = .next t) : t.Inv := by
  rcases exec_cases h with ⟨-, rfl⟩ | ⟨-, c, hc, rfl⟩ | ⟨-, he⟩
  · exact hi.answered 0
  · exact hi.faulted hc
  · exact he.keeps_inv hi

theorem raiseFault_keeps_inv {c : FaultCode} (hc : c ≠ .crc) (hi : s.Inv) (h : raiseFault c s = .next t) : t.Inv := by
  rcases raiseFault_cases c h with ⟨-, rfl⟩ | ⟨-, rfl⟩
  · exact hi.faulted hc
  · exact hi.answered 0

/-- Settles O11: idle, the reset event, ILLEGAL and every command keep the invariant. -/
theorem stepKeepsInvariant : Obligations.StepKeepsInvariant := by
  intro s t hi h
  rcases step_cases h with ⟨-, rfl⟩ | ⟨rest, -, rfl⟩ | ⟨tx, rest, -, ⟨e, -, h⟩ | ⟨i, -, h⟩⟩
  · exact hi
  · exact .afterReset hi.config
  · exact raiseFault_keeps_inv (by decide) (hi.withInputs rest) h
  · exact exec_keeps_inv (hi.withInputs rest) h

/-- Settles O10: the registers are 0, nothing is listed, and the OUT_CAP of 4096 is legal. -/
theorem resetStateMeetsInvariant : Obligations.ResetStateMeetsInvariant := reset_inv

end Sys2Proof.Machine
end

section
/-! PROOFS. The projections of `S` (10_state.md R22) and STATUS (R35). -/

namespace Sys2Proof.Machine

variable {s : State}

/-- `S` is its complete bytes and its pending bits. -/
theorem State.bitLen_eq (s : State) : s.bitLen = 8 * s.outLen + s.pbits :=
  (Nat.div_add_mod s.bitLen 8).symm

/-- The pending bits are `PBITS` many. -/
theorem State.length_pending (s : State) : (s.out.drop (8 * s.outLen)).length = s.pbits := by
  have h : s.out.length = 8 * s.outLen + s.pbits := s.bitLen_eq
  rw [List.length_drop]
  omega

theorem State.pacc_lt (s : State) : s.pacc < 2 ^ s.pbits := by
  rw [← s.length_pending]
  exact bitsToNat_lt _

/-- Settles O12: OUT_LEN is at most the 32-bit OUT_CAP, and 8 bits a byte and fewer than 8 pending ones make 35 bits. -/
theorem projectionsFitTheirRegisters : Obligations.ProjectionsFitTheirRegisters := by
  intro s hi
  have hbits := s.bitLen_eq
  have hp : s.pbits < 8 := Nat.mod_lt _ (by decide)
  have hcap := hi.capacity
  have hwidth := s.config.outCap.isLt
  exact ⟨by omega, by omega, hbits, hp, s.pacc_lt⟩

/-- A bit of a complete byte of OUT is a bit of `S`, the first-written on top (20_memory.md R51). -/
theorem State.getElem?_out_of_byte {a j : Nat} (ha : a < s.outLen) (hj : j < 8) :
    s.out[8 * a + j]? = some ((s.outByte a).getLsbD (7 - j)) := by
  have hbits : 8 * s.outLen ≤ s.out.length := Nat.mul_div_le _ _
  have hlen : ((s.out.drop (8 * a)).take 8).length = 8 := by
    rw [List.length_take, List.length_drop]
    omega
  have hbit := getElem?_eq_testBit ((s.out.drop (8 * a)).take 8) j (by omega)
  rw [List.getElem?_take_of_lt hj, List.getElem?_drop, hlen] at hbit
  rw [hbit, State.outByte, BitVec.getLsbD_ofNat, decide_eq_true (by omega : 7 - j < 8), Bool.true_and]

/-- A bit of PACC below PBITS is a pending bit of `S`. -/
theorem State.getElem?_out_of_pending {j : Nat} (hj : j < s.pbits) :
    s.out[8 * s.outLen + j]? = some (s.pacc.testBit (s.pbits - 1 - j)) := by
  have hbit := getElem?_eq_testBit (s.out.drop (8 * s.outLen)) j (by rwa [s.length_pending])
  rwa [List.getElem?_drop, s.length_pending] at hbit

/-- Settles O25, byte by byte, pending bit by pending bit, and with PACC below `2^PBITS`. -/
theorem outByteBits : Obligations.OutByteBits := by
  refine ⟨fun s a j ha hj => State.getElem?_out_of_byte ha hj, fun s j hj => State.getElem?_out_of_pending hj,
    fun s i hi => ?_⟩
  exact Nat.testBit_lt_two_pow (s.pacc_lt.trans_le (Nat.pow_le_pow_right (by decide) hi))

theorem WState.bit_eq_true_iff (w : WState) : w.bit.getLsbD 0 = true ↔ w = .finished := by
  cases w <;> decide

/-- Settles O23: READ_REG 0 answers STATUS, and each field is one piece of the concatenation, above those below it. -/
theorem statusFields : Obligations.StatusFields := by
  intro s
  have hp : s.pbits < 2 ^ 3 := Nat.mod_lt _ (by decide)
  refine ⟨s.status, rfl, ?_, ?_, ?_, ?_, ?_, ?_⟩ <;> unfold State.status
  · exact BitVec.extractLsb'_append_eq_right
  · rw [BitVec.getLsbD_append, if_neg (by decide), BitVec.getLsbD_append, if_pos (by decide)]
    exact s.wstate.bit_eq_true_iff
  · iterate 2 rw [BitVec.extractLsb'_append_eq_of_le (by decide)]
    rw [BitVec.extractLsb'_append_eq_right, BitVec.toNat_ofNat, Nat.mod_eq_of_lt hp]
    rfl
  · iterate 3 rw [BitVec.getLsbD_append, if_neg (by decide)]
    rw [BitVec.getLsbD_append, if_pos (by decide)]
    exact BitVec.getLsbD_ofBool _ _
  · iterate 4 rw [BitVec.extractLsb'_append_eq_of_le (by decide)]
    exact BitVec.extractLsb'_append_eq_right
  · iterate 5 rw [BitVec.extractLsb'_append_eq_of_le (by decide)]
    exact BitVec.extractLsb'_zero

end Sys2Proof.Machine
end

section
/-! PROOFS. The frame of every command (10_state.md R36, R38). -/

namespace Sys2Proof.Machine

variable {s t : State}

/-- `s` with the registers that the rule of command `i` names taken from `u`, and nothing else (10_state.md R36). -/
def State.withWritesOf (s : State) (i : Instr) (u : State) : State :=
  match i with
  | .nop | .readOut _ | .readReg _ | .readKtab _ => s
  | .writeBits _ _ | .writeUnary _ | .align | .riceEncode _ _ _ | .riceEmit => { s with out := u.out }
  | .clear | .finish => { s with out := u.out, wstate := u.wstate }
  | .loadRes _ _ => { s with res := u.res, rpValid := u.rpValid }
  | .riceChoose _ _ _ => { s with rcK := u.rcK, rcCost := u.rcCost }
  | .ricePartition _ _ _ _ =>
    { s with
      rpOrder := u.rpOrder, rpMethod := u.rpMethod, rpCost := u.rpCost, rpBlockSize := u.rpBlockSize,
      rpPred := u.rpPred, rpValid := u.rpValid, ktab := u.ktab }
  | .frameHeader _ _ _ _ _ _ =>
    { s with
      out := u.out, crc8Last := u.crc8Last, hdrLen := u.hdrLen, seqStrat := u.seqStrat, seqNext := u.seqNext }
  | .seqSet _ _ => { s with seqStrat := u.seqStrat, seqNext := u.seqNext }

@[simp] theorem State.withWritesOf_self (s : State) (i : Instr) : s.withWritesOf i s = s := by
  cases i <;> rfl

/-- A command that completes writes only the registers its rule names, and answers. -/
theorem Effect.writes {i : Instr} (h : Effect i s t) : ∃ v, t = (s.withWritesOf i t).answered v := by
  cases i with
  | nop => cases h; exact ⟨_, rfl⟩
  | clear => cases h; exact ⟨_, rfl⟩
  | writeBits w v => obtain ⟨-, -, -, -, -, rfl⟩ := h; exact ⟨_, rfl⟩
  | writeUnary n => obtain ⟨-, -, rfl⟩ := h; exact ⟨_, rfl⟩
  | align => obtain ⟨-, -, rfl⟩ := h; exact ⟨_, rfl⟩
  | finish => obtain ⟨-, -, rfl⟩ := h; exact ⟨_, rfl⟩
  | readOut addr => obtain ⟨-, rfl⟩ := h; exact ⟨_, rfl⟩
  | readReg reg => obtain ⟨v, -, rfl⟩ := h; exact ⟨v, rfl⟩
  | loadRes idx val => obtain ⟨-, rfl⟩ := h; exact ⟨_, rfl⟩
  | riceChoose k start count => obtain ⟨-, -, -, words, -, rfl⟩ := h; exact ⟨_, rfl⟩
  | riceEncode k start count => obtain ⟨-, -, -, -, words, -, -, rfl⟩ := h; exact ⟨_, rfl⟩
  | ricePartition pmin pmax pred bs => obtain ⟨-, -, -, -, p, ps, words, -, -, rfl⟩ := h; exact ⟨_, rfl⟩
  | riceEmit => obtain ⟨-, -, words, -, -, rfl⟩ := h; exact ⟨_, rfl⟩
  | readKtab idx => obtain ⟨-, -, rfl⟩ := h; exact ⟨_, rfl⟩
  | frameHeader strat bs rate ch bps num => obtain ⟨-, -, -, -, -, -, -, -, rfl⟩ := h; exact ⟨_, rfl⟩
  | seqSet sstrat next => obtain ⟨-, -, rfl⟩ := h; exact ⟨_, rfl⟩

/-- Suppressed, faulted or completed, a command writes FAULT and the registers its rule names, and answers. -/
theorem exec_writes {i : Instr} (h : exec i s = .next t) :
    ∃ u c v, t = ({ s.withWritesOf i u with fault := c } : State).answered v := by
  rcases exec_cases h with ⟨-, rfl⟩ | ⟨-, c, -, rfl⟩ | ⟨-, he⟩
  · exact ⟨s, s.fault, 0, by rw [State.withWritesOf_self]⟩
  · exact ⟨s, c.code, 0, by rw [State.withWritesOf_self]; rfl⟩
  · obtain ⟨v, ht⟩ := he.writes
    exact ⟨t, (s.withWritesOf i t).fault, v, ht⟩

/-- Settles O18: for each command, a clause either names it or speaks of registers `State.withWritesOf` leaves alone. -/
theorem onlyNamedCommandsWriteEachRegister : Obligations.OnlyNamedCommandsWriteEachRegister := by
  intro i s t h
  obtain ⟨u, c, v, rfl⟩ := exec_writes h
  cases i <;> simp [State.withWritesOf, appends]

end Sys2Proof.Machine
end

section
/-! PROOFS. The model's only stop, UNINIT_RES (10_state.md R25). -/

namespace Sys2Proof.Machine

variable {s t : State} {i : Instr}

/-- What an outcome of command `i` in `s` can be: a next state, or UNINIT_RES with FAULT 0 and an unwritten entry among
those the command reads. -/
def AnswersOrStops (i : Instr) (s : State) (r : Result) : Prop :=
  (∃ t, r = .next t) ∨
    (r = .fault .uninitRes ∧ s.fault = 0 ∧
      ∃ start count, residualRange i s = some (start, count) ∧ s.res.readRange start count = none)

namespace AnswersOrStops

theorem next (t : State) : AnswersOrStops i s (.next t) := .inl ⟨t, rfl⟩

theorem gate {body : Unit → Result} (h : s.fault = 0 → AnswersOrStops i s (body ())) :
    AnswersOrStops i s (gate s body) := by
  rcases gate_cases rfl with ⟨-, hr⟩ | ⟨hs, hr⟩
  · exact hr ▸ next _
  · exact hr ▸ h hs

theorem checked {checks : List Check} {body : Unit → Result} (h : AnswersOrStops i s (body ())) :
    AnswersOrStops i s (checked checks s body) := by
  rcases checked_cases rfl with ⟨c, -, hr⟩ | ⟨-, hr⟩
  · exact hr ▸ next _
  · exact hr ▸ h

theorem append {n : Nat} {bits : Unit → Bits} {done : State → Result} (h : ∀ u, AnswersOrStops i s (done u)) :
    AnswersOrStops i s (append n bits s done) := by
  rcases append_cases rfl with hr | ⟨-, hr⟩
  · exact hr ▸ next _
  · exact hr ▸ h _

theorem withResiduals {start count : Nat} {body : List Int → Result} (hs : s.fault = 0)
    (hrange : residualRange i s = some (start, count)) (h : ∀ rs, AnswersOrStops i s (body rs)) :
    AnswersOrStops i s (withResiduals start count s body) := by
  rcases withResiduals_cases rfl with ⟨hnone, hr⟩ | ⟨words, -, hr⟩
  · exact .inr ⟨hr, hs, start, count, hrange, hnone⟩
  · exact hr ▸ h _

end AnswersOrStops

/-- Every command answers, or stops on an unwritten entry: none is refused. -/
theorem exec_answersOrStops (i : Instr) (s : State) : AnswersOrStops i s (exec i s) := by
  cases i with simp only [exec]
  | nop => exact .next _
  | clear => exact .gate fun _ => .next _
  | writeBits w v => exact .gate fun _ => .checked (.append fun _ => .next _)
  | writeUnary n => exact .gate fun _ => .checked (.append fun _ => .next _)
  | align => exact .gate fun _ => .checked (.append fun _ => .next _)
  | finish => exact .gate fun _ => .checked (.append fun _ => .next _)
  | readOut addr => exact .checked (.next _)
  | readReg reg =>
    unfold execReadReg
    split <;> exact .next _
  | loadRes idx val => exact .gate fun _ => .checked (.next _)
  | riceChoose k start count => exact .gate fun hs => .checked (.withResiduals hs rfl fun _ => .next _)
  | riceEncode k start count =>
    exact .gate fun hs => .checked (.withResiduals hs rfl fun _ => .append fun _ => .next _)
  | ricePartition pmin pmax pred bs =>
    refine .gate fun hs => .checked ?_
    split
    · exact .next _
    · exact .withResiduals hs rfl fun _ => .next _
  | riceEmit => exact .gate fun hs => .checked (.withResiduals hs rfl fun _ => .append fun _ => .next _)
  | readKtab idx => exact .checked (.next _)
  | frameHeader strat bs rate ch bps num => exact .gate fun _ => .checked (.append fun _ => .next _)
  | seqSet sstrat next => exact .gate fun _ => .checked (.next _)

theorem exec_ne_refused (i : Instr) (s : State) (r : Refusal) : exec i s ≠ .refused r := by
  intro h
  rcases exec_answersOrStops i s with ⟨t, hn⟩ | ⟨hf, -⟩
  · cases h.symm.trans hn
  · cases h.symm.trans hf

theorem exec_fault {f : Fault} (h : exec i s = .fault f) :
    f = .uninitRes ∧ s.fault = 0 ∧ ∃ start count, residualRange i s = some (start, count) ∧
      ∃ j < count, s.res.read (start + j) = none := by
  rcases exec_answersOrStops i s with ⟨t, hn⟩ | ⟨hf, hs, start, count, hrange, hnone⟩
  · cases h.symm.trans hn
  · cases h.symm.trans hf
    exact ⟨rfl, hs, start, count, hrange, (Memory.readRange_eq_none_iff _ _ _).mp hnone⟩

theorem withResiduals_of_unwritten {start count j : Nat} {body : List Int → Result} (hj : j < count)
    (hread : s.res.read (start + j) = none) : withResiduals start count s body = .fault .uninitRes := by
  simp only [withResiduals, (Memory.readRange_eq_none_iff _ _ _).mpr ⟨j, hj, hread⟩]

/-- LOAD_RES that completes writes its entry and no other (41_rice.md R130). -/
theorem loadRes_read {idx : BitVec 16} {val : BitVec 32} (h : exec (.loadRes idx val) s = .next t) (ht : t.fault = 0) :
    t.res.read idx.toNat = some val ∧ ∀ j, j ≠ idx.toNat → t.res.read j = s.res.read j := by
  rcases exec_cases h with ⟨hs, rfl⟩ | ⟨-, c, -, rfl⟩ | ⟨-, -, rfl⟩
  · exact absurd ht hs
  · exact absurd ht c.code_ne_zero
  · exact ⟨Memory.read_write_self _ _ _, fun j hj => Memory.read_write_ne _ _ hj⟩

/-- A command that reads residuals right after its checks stops when they pass and an entry is unwritten. -/
theorem stops_of_unwritten {checks : List Check} {start count j : Nat} {body : List Int → Result} (hs : s.fault = 0)
    (hj : j < count) (hread : s.res.read (start + j) = none) (hchecks : ∀ chk ∈ checks, chk.1 = true) :
    (gate s fun _ => checked checks s fun _ => withResiduals start count s body) = .fault .uninitRes := by
  rw [gate_of_clear _ hs, checked_of_pass hchecks, withResiduals_of_unwritten hj hread]

theorem riceChoose_stops {k : BitVec 5} {start count : BitVec 16} {j : Nat} (hs : s.fault = 0) (hj : j < count.toNat)
    (hread : s.res.read (start.toNat + j) = none) (hk : k.toNat ≤ 30) (hdepth : start.toNat + count.toNat ≤ 65535) :
    exec (.riceChoose k start count) s = .fault .uninitRes := by
  have hcount : 1 ≤ count.toNat := by omega
  exact stops_of_unwritten hs hj hread (by simp [hk, hcount, resDepth, hdepth])

theorem riceEncode_stops {k : BitVec 5} {start count : BitVec 16} {j : Nat} (hs : s.fault = 0) (hj : j < count.toNat)
    (hread : s.res.read (start.toNat + j) = none) (hopen : s.wstate = .opened) (hk : k.toNat ≤ 30)
    (hdepth : start.toNat + count.toNat ≤ 65535) : exec (.riceEncode k start count) s = .fault .uninitRes := by
  have hcount : 1 ≤ count.toNat := by omega
  exact stops_of_unwritten hs hj hread (by simp [hopen, hk, hcount, resDepth, hdepth])

theorem riceEmit_stops {j : Nat} (hs : s.fault = 0) (hj : j < s.rpBlockSize.toNat - s.rpPred.toNat)
    (hread : s.res.read (0 + j) = none) (hopen : s.wstate = .opened) (hvalid : s.rpValid = true) :
    exec .riceEmit s = .fault .uninitRes :=
  stops_of_unwritten hs hj hread (by simp [hopen, hvalid])

theorem ricePartition_stops {pmin pmax : BitVec 4} {pred : BitVec 6} {bs : BitVec 16} {p j : Nat} (hs : s.fault = 0)
    (hj : j < bs.toNat - pred.toNat) (hread : s.res.read (0 + j) = none) (hpred : pred.toNat ≤ 32)
    (hmin : pmin.toNat ≤ p) (hmax : p ≤ pmax.toNat) (hlegal : legalOrder bs.toNat pred.toNat p) :
    exec (.ricePartition pmin pmax pred bs) s = .fault .uninitRes := by
  have hbs : 1 ≤ bs.toNat := by omega
  have hlt : pred.toNat < bs.toNat := by omega
  have hle := hmin.trans hmax
  have hp : p ∈ legalOrders bs.toNat pred.toNat pmin.toNat pmax.toNat := mem_legalOrders.mpr ⟨hmin, hmax, hlegal⟩
  change execRicePartition pmin pmax pred bs s = _
  unfold execRicePartition
  rw [gate_of_clear _ hs, checked_of_pass (by simp [hbs, hpred, hlt, hle])]
  split
  · rename_i hnone
    rw [hnone] at hp
    exact absurd hp List.not_mem_nil
  · exact withResiduals_of_unwritten hj hread

/-- Settles O20: no command is refused or stops but on an unwritten entry of those it reads, and the four commands that
read RES do stop there. -/
theorem uninitResIsTheOnlyStop : Obligations.UninitResIsTheOnlyStop := by
  refine ⟨Memory.read_nil, fun _ _ _ _ h ht => loadRes_read h ht, exec_ne_refused, fun _ _ _ h => exec_fault h,
    fun s start count j hs hj hread => ⟨?_, ?_, ?_, ?_⟩⟩
  · rintro k st ct ⟨⟩ hk hdepth
    exact riceChoose_stops hs hj hread hk hdepth
  · rintro k st ct ⟨⟩ hopen hk hdepth
    exact riceEncode_stops hs hj hread hopen hk hdepth
  · rintro pmin pmax pred bs ⟨⟩ hpred - ⟨p, hmin, hmax, hlegal⟩
    exact ricePartition_stops hs hj hread hpred hmin hmax hlegal
  · rintro ⟨⟩ hopen hvalid
    exact riceEmit_stops hs hj hread hopen hvalid

end Sys2Proof.Machine
end

section
/-! PROOFS. The bits of `S` and its complete bytes (20_memory.md R52 to R54). -/

namespace Sys2Proof.Machine

variable {s t : State}

/-- Eight bits of `S` that end at a byte boundary and spell `b` are a byte of OUT (20_memory.md R51). -/
theorem State.outByte_of_out_eq {pre post : Bits} {a b : Nat} (h : s.out = pre ++ bitsOf b 8 ++ post)
    (hpre : pre.length = 8 * a) : s.outByte a = BitVec.ofNat 8 b := by
  have hbits : (s.out.drop (8 * a)).take 8 = bitsOf b 8 := by
    rw [h, List.append_assoc, List.drop_left' hpre, List.take_left' (length_bitsOf b 8)]
  rw [State.outByte, hbits, bitsToNat_bitsOf]
  apply BitVec.eq_of_toNat_eq
  simp

/-- A complete byte keeps its address and its value when `S` grows (20_memory.md R54). -/
theorem State.outByte_of_prefix {a : Nat} (h : s.out <+: t.out) (ha : a < s.outLen) :
    a < t.outLen ∧ t.outByte a = s.outByte a := by
  obtain ⟨bits, hout⟩ := h
  have hs : 8 * s.outLen ≤ s.out.length := Nat.mul_div_le _ _
  have hlen : s.outLen ≤ t.outLen := by
    simp only [State.outLen, State.bitLen, ← hout, List.length_append]
    omega
  refine ⟨by omega, ?_⟩
  have hdrop : (s.out ++ bits).drop (8 * a) = s.out.drop (8 * a) ++ bits := List.drop_append_of_le_length (by omega)
  have htake : (s.out.drop (8 * a) ++ bits).take 8 = (s.out.drop (8 * a)).take 8 :=
    List.take_append_of_le_length (by rw [List.length_drop]; omega)
  rw [State.outByte, ← hout, hdrop, htake, State.outByte]

/-- An appending command that completes adds bits at the end of `S` (20_memory.md R52). -/
theorem Effect.out_prefix {i : Instr} (hi : appends i = true) (h : Effect i s t) : s.out <+: t.out := by
  cases i with
  | writeBits w v => obtain ⟨-, -, -, -, -, rfl⟩ := h; exact List.prefix_append _ _
  | writeUnary n => obtain ⟨-, -, rfl⟩ := h; exact List.prefix_append _ _
  | align => obtain ⟨-, -, rfl⟩ := h; exact List.prefix_append _ _
  | finish => obtain ⟨-, -, rfl⟩ := h; exact List.prefix_append _ _
  | riceEncode k start count => obtain ⟨-, -, -, -, words, -, -, rfl⟩ := h; exact List.prefix_append _ _
  | riceEmit => obtain ⟨-, -, words, -, -, rfl⟩ := h; exact List.prefix_append _ _
  | frameHeader strat bs rate ch bps num =>
    obtain ⟨-, -, -, -, -, -, -, -, rfl⟩ := h; exact List.prefix_append _ _
  | nop | clear | readOut | readReg | loadRes | riceChoose | ricePartition | readKtab | seqSet => cases hi

/-- No command but CLEAR changes a bit of `S`: the appending ones add bits, and the frame of the others keeps it. -/
theorem exec_out_prefix {i : Instr} (hi : i ≠ .clear) (h : exec i s = .next t) : s.out <+: t.out := by
  cases happ : appends i with
  | false =>
    obtain ⟨-, -, -, hout, -⟩ := onlyNamedCommandsWriteEachRegister i s t h
    rw [hout happ hi]
  | true =>
    rcases exec_cases h with ⟨-, rfl⟩ | ⟨-, c, -, rfl⟩ | ⟨-, he⟩
    · exact List.prefix_rfl
    · exact List.prefix_rfl
    · exact he.out_prefix happ

theorem exec_clear_out (h : exec .clear s = .next t) : t.out = s.out ∨ t.out = [] := by
  rcases exec_cases h with ⟨-, rfl⟩ | ⟨-, c, -, rfl⟩ | ⟨-, rfl⟩
  · exact .inl rfl
  · exact .inl rfl
  · exact .inr rfl

/-- Settles O17: the new `S` begins with the old one, and so no complete byte changes. -/
theorem completeBytesNeverChange : Obligations.CompleteBytesNeverChange := by
  intro i s t h
  refine ⟨fun hi => ?_, ?_⟩
  · have hpre := exec_out_prefix hi h
    exact ⟨hpre, fun a ha => State.outByte_of_prefix hpre ha⟩
  · rintro rfl
    exact exec_clear_out h

/-- WRITE_BITS that completes appends its field (40_bitwriter.md R100). -/
theorem writeBits_out {w : BitVec 7} {v : BitVec 64} (h : exec (.writeBits w v) s = .next t) (ht : t.fault = 0) :
    t.out = s.out ++ bitsOf v.toNat w.toNat := by
  rcases exec_cases h with ⟨hs, rfl⟩ | ⟨-, c, -, rfl⟩ | ⟨-, -, -, -, -, -, rfl⟩
  · exact absurd ht hs
  · exact absurd ht c.code_ne_zero
  · rfl

/-- Byte `j` of a field of `n` bytes: the bytes above it, its own eight bits, and the bytes below it. -/
theorem bitsOf_split_byte (v : Nat) {n j : Nat} (hj : j < n) :
    bitsOf v (8 * n) = bitsOf (v >>> (8 * (n - 1 - j)) >>> 8) (8 * j) ++ bitsOf (v >>> (8 * (n - 1 - j))) 8 ++
      bitsOf v (8 * (n - 1 - j)) := by
  rw [← bitsOf_add, ← bitsOf_add]
  congr 1
  omega

/-- Settles O34: the field lands behind whole bytes, so each of its bytes is a byte of OUT. -/
theorem wholeBytesLandBigEndian : Obligations.WholeBytesLandBigEndian := by
  intro w v s t n j _ hp hw h ht hj
  have hout := writeBits_out h ht
  have hlen : s.out.length = 8 * s.outLen := by
    have := s.bitLen_eq
    rwa [hp] at this
  refine ⟨?_, ?_⟩
  · simp only [State.outLen, State.bitLen, hout, List.length_append, length_bitsOf] at hlen ⊢
    omega
  · rw [hw, bitsOf_split_byte _ hj, ← List.append_assoc, ← List.append_assoc] at hout
    exact State.outByte_of_out_eq hout (by rw [List.length_append, length_bitsOf, hlen]; omega)

end Sys2Proof.Machine
end

section
/-! PROOFS. Reads (20_memory.md R66). -/

namespace Sys2Proof.Machine

variable {s t : State}

/-- The register map ends at 0x0E (10_state.md R36). -/
theorem State.register_eq_none_iff (s : State) (n : Nat) : s.register n = none ↔ 0x0E < n := by
  refine ⟨fun h => ?_, fun h => ?_⟩
  · by_contra hle
    have hn : n ≤ 0x0E := by omega
    interval_cases n <;> cases h
  · obtain ⟨k, rfl⟩ := Nat.exists_eq_add_of_le' h
    rfl

theorem exec_readReg_of_some {reg : BitVec 8} {v : BitVec 64} (h : s.register reg.toNat = some v) :
    exec (.readReg reg) s = respond v s := by
  simp only [exec, execReadReg, h]

theorem exec_readReg_of_none {reg : BitVec 8} (h : 0x0E < reg.toNat) :
    exec (.readReg reg) s = raiseFault .illegal s := by
  simp only [exec, execReadReg, (s.register_eq_none_iff _).mpr h]

theorem exec_readOut_of_lt {addr : BitVec 32} (h : addr.toNat < s.outLen) :
    exec (.readOut addr) s = respond (zext64 (s.outByte addr.toNat)) s := by
  simp [exec, execReadOut, h]

theorem exec_readOut_of_not_lt {addr : BitVec 32} (h : ¬ addr.toNat < s.outLen) :
    exec (.readOut addr) s = raiseFault .range s := by
  simp [exec, execReadOut, h]

theorem exec_readKtab_of_not_valid {idx : BitVec 15} (h : ¬ s.rpValid = true) :
    exec (.readKtab idx) s = raiseFault .state s := by
  simp [exec, execReadKtab, h]

theorem exec_readKtab_of_lt {idx : BitVec 15} (hv : s.rpValid = true) (h : idx.toNat < 2 ^ s.rpOrder.toNat) :
    exec (.readKtab idx) s = respond (zext64 (s.ktabEntry idx.toNat)) s := by
  simp [exec, execReadKtab, hv, h]

theorem exec_readKtab_of_not_lt {idx : BitVec 15} (hv : s.rpValid = true) (h : ¬ idx.toNat < 2 ^ s.rpOrder.toNat) :
    exec (.readKtab idx) s = raiseFault .range s := by
  simp [exec, execReadKtab, hv, h]

/-- A read answers one value whatever responses were given before, or fails one check whatever FAULT is too. -/
theorem exec_read {i : Instr} (hi : isRead i = true) (s : State) :
    (∃ v, ∀ past, exec i { s with responses := past } = respond v { s with responses := past }) ∨
      ∃ c, ∀ f past, exec i { s with fault := f, responses := past } =
        raiseFault c { s with fault := f, responses := past } := by
  cases i with
  | nop => exact .inl ⟨0, fun _ => rfl⟩
  | readReg reg =>
    by_cases hreg : 0x0E < reg.toNat
    · exact .inr ⟨.illegal, fun _ _ => exec_readReg_of_none hreg⟩
    · obtain ⟨v, hv⟩ := Option.ne_none_iff_exists'.mp (mt (s.register_eq_none_iff reg.toNat).mp hreg)
      exact .inl ⟨v, fun _ => exec_readReg_of_some hv⟩
  | readOut addr =>
    by_cases ha : addr.toNat < s.outLen
    · exact .inl ⟨zext64 (s.outByte addr.toNat), fun _ => exec_readOut_of_lt ha⟩
    · exact .inr ⟨.range, fun _ _ => exec_readOut_of_not_lt ha⟩
  | readKtab idx =>
    by_cases hv : s.rpValid = true
    · by_cases hlt : idx.toNat < 2 ^ s.rpOrder.toNat
      · exact .inl ⟨zext64 (s.ktabEntry idx.toNat), fun _ => exec_readKtab_of_lt hv hlt⟩
      · exact .inr ⟨.range, fun _ _ => exec_readKtab_of_not_lt hv hlt⟩
    · exact .inr ⟨.state, fun _ _ => exec_readKtab_of_not_valid hv⟩
  | clear | writeBits | writeUnary | align | finish | loadRes | riceChoose | riceEncode | ricePartition | riceEmit
  | frameHeader | seqSet => cases hi

/-- Settles O16: a read that answers changes the responses only; one that faults changes FAULT too, and when it is done
again the same check fails and the code stays. -/
theorem readsHaveNoSideEffects : Obligations.ReadsHaveNoSideEffects := by
  intro i s t hi h
  rcases exec_read hi s with ⟨v, hans⟩ | ⟨c, hfail⟩
  · cases (hans s.responses).symm.trans h
    exact ⟨rfl, fun _ => rfl, _, hans _, rfl, rfl⟩
  · rcases raiseFault_cases c ((hfail s.fault s.responses).symm.trans h) with ⟨hs, rfl⟩ | ⟨hs, rfl⟩
    · exact ⟨rfl, absurd hs, _, (hfail c.code _).trans (raiseFault_of_faulted c c.code_ne_zero), rfl, rfl⟩
    · exact ⟨rfl, fun _ => rfl, _, (hfail s.fault _).trans (raiseFault_of_faulted c hs), rfl, rfl⟩

end Sys2Proof.Machine
end

section
/-! PROOFS. A step observes neither the inputs after the next one nor the responses already given (20_memory.md R60). -/

namespace Sys2Proof.Machine

variable {s : State} {rest : List HostInput} {past : List Response}

/-- `s` with `rest` waiting after its own inputs and `past` answered before its own responses. -/
def State.between (s : State) (rest : List HostInput) (past : List Response) : State :=
  { s with inputs := s.inputs ++ rest, responses := s.responses ++ past }

/-- The outcome with `State.between` done to the next state, if there is one. -/
def resultBetween (rest : List HostInput) (past : List Response) : Result → Result
  | .next t => .next (t.between rest past)
  | .fault f => .fault f
  | .refused r => .refused r

theorem State.register_between (s : State) (rest : List HostInput) (past : List Response) (n : Nat) :
    (s.between rest past).register n = s.register n := rfl

/-! ### The shared operations -/

theorem respond_between (v : BitVec 64) (s : State) :
    respond v (s.between rest past) = resultBetween rest past (respond v s) := rfl

theorem raiseFault_between (c : FaultCode) (s : State) :
    raiseFault c (s.between rest past) = resultBetween rest past (raiseFault c s) := rfl

theorem gate_between {body body' : Unit → Result} (h : body' () = resultBetween rest past (body ())) :
    gate (s.between rest past) body' = resultBetween rest past (gate s body) := by
  by_cases hs : s.fault = 0
  · rw [gate_of_clear body hs, gate_of_clear (s := s.between rest past) body' hs, h]
  · rw [gate_of_faulted body hs, gate_of_faulted (s := s.between rest past) body' hs]
    rfl

theorem checked_between {checks : List Check} {body body' : Unit → Result}
    (h : body' () = resultBetween rest past (body ())) :
    checked checks (s.between rest past) body' = resultBetween rest past (checked checks s body) := by
  unfold checked
  cases firstFailure checks with
  | none => exact h
  | some c => rfl

theorem append_between {n : Nat} {bits : Unit → Bits} {done done' : State → Result}
    (h : ∀ u, done' (u.between rest past) = resultBetween rest past (done u)) :
    append n bits (s.between rest past) done' = resultBetween rest past (append n bits s done) := by
  by_cases hc : s.exceedsCapacity n
  · rw [append_of_full hc, append_of_full (s := s.between rest past) hc]
    rfl
  · rw [append_of_fits hc, append_of_fits (s := s.between rest past) hc]
    exact h { s with out := s.out ++ bits () }

theorem withResiduals_between {start count : Nat} {body body' : List Int → Result}
    (h : ∀ rs, body' rs = resultBetween rest past (body rs)) :
    withResiduals start count (s.between rest past) body' =
      resultBetween rest past (withResiduals start count s body) := by
  change withResiduals start count s body' = _
  unfold withResiduals
  cases s.res.readRange start count with
  | none => rfl
  | some words => exact h _

/-! ### The commands and the step -/

theorem execReadReg_between (reg : BitVec 8) (s : State) :
    execReadReg reg (s.between rest past) = resultBetween rest past (execReadReg reg s) := by
  unfold execReadReg
  rw [State.register_between]
  cases s.register reg.toNat <;> rfl

theorem execRicePartition_between (pmin pmax : BitVec 4) (pred : BitVec 6) (bs : BitVec 16) (s : State) :
    execRicePartition pmin pmax pred bs (s.between rest past) =
      resultBetween rest past (execRicePartition pmin pmax pred bs s) := by
  refine gate_between (checked_between ?_)
  cases legalOrders bs.toNat pred.toNat pmin.toNat pmax.toNat with
  | nil => rfl
  | cons p ps => exact withResiduals_between fun _ => rfl

/-- Every command commutes with `State.between`: it is built from operations that do. -/
theorem exec_between (i : Instr) (s : State) (rest : List HostInput) (past : List Response) :
    exec i (s.between rest past) = resultBetween rest past (exec i s) := by
  cases i with simp only [exec]
  | nop => rfl
  | clear => exact gate_between rfl
  | writeBits w v => exact gate_between (checked_between (append_between fun _ => rfl))
  | writeUnary n => exact gate_between (checked_between (append_between fun _ => rfl))
  | align => exact gate_between (checked_between (append_between fun _ => rfl))
  | finish => exact gate_between (checked_between (append_between fun _ => rfl))
  | readOut addr => exact checked_between rfl
  | readReg reg => exact execReadReg_between reg s
  | loadRes idx val => exact gate_between (checked_between rfl)
  | riceChoose k start count => exact gate_between (checked_between (withResiduals_between fun _ => rfl))
  | riceEncode k start count =>
    exact gate_between (checked_between (withResiduals_between fun _ => append_between fun _ => rfl))
  | ricePartition pmin pmax pred bs => exact execRicePartition_between pmin pmax pred bs s
  | riceEmit => exact gate_between (checked_between (withResiduals_between fun _ => append_between fun _ => rfl))
  | readKtab idx => exact checked_between rfl
  | frameHeader strat bs rate ch bps num => exact gate_between (checked_between (append_between fun _ => rfl))
  | seqSet sstrat next => exact gate_between (checked_between rfl)

/-- The arm of `step` for a transaction that is no command. -/
theorem step_of_decode_error {tx : Transaction} {e : DecodeError} (hin : s.inputs = .command tx :: rest)
    (hdec : decode tx = .error e) : step s = raiseFault .illegal { s with inputs := rest } := by
  unfold step
  rw [State.nextInput_of_cons hin]
  simp only [hdec]

/-- The step with `input` next is the step in which no other input waits and no response has been given, placed
between the later inputs and the past responses. -/
theorem step_eq_between (s : State) (input : HostInput) (rest : List HostInput) (past : List Response) :
    step { s with inputs := input :: rest, responses := past } =
      resultBetween rest past (step { s with inputs := [input], responses := [] }) := by
  cases input with
  | reset => rfl
  | command tx =>
    cases hdec : decode tx with
    | ok i =>
      rw [step_of_decode_ok rfl hdec, step_of_decode_ok rfl hdec]
      exact exec_between i { s with inputs := [], responses := [] } rest past
    | error e =>
      rw [step_of_decode_error rfl hdec, step_of_decode_error rfl hdec]
      exact raiseFault_between .illegal { s with inputs := [], responses := [] }

theorem step_ne_refused (s : State) (r : Refusal) : step s ≠ .refused r := by
  intro h
  unfold step at h
  split at h
  · cases h
  · cases h
  · split at h
    · exact exec_ne_refused _ _ _ h
    · cases h

/-- A step takes the next input and leaves the others waiting (20_memory.md R60). -/
theorem step_inputs {t : State} {input : HostInput} (hin : s.inputs = input :: rest) (h : step s = .next t) :
    t.inputs = rest := by
  rcases step_cases h with ⟨hnil, -⟩ | ⟨rest', hr, rfl⟩ | ⟨tx, rest', hc, ⟨e, -, h⟩ | ⟨i, -, h⟩⟩
  · cases hin.symm.trans hnil
  · cases hin.symm.trans hr
    rfl
  · cases hin.symm.trans hc
    cases h
    rfl
  · cases hin.symm.trans hc
    obtain ⟨-, hinputs, -⟩ := onlyNamedCommandsWriteEachRegister _ _ _ h
    exact hinputs

/-- Settles O19: both steps are one step, placed between different later inputs and past responses. -/
theorem stepIgnoresLaterInputs : Obligations.StepIgnoresLaterInputs := by
  intro s input rest rest' past past'
  rw [step_eq_between s input rest past, step_eq_between s input rest' past']
  cases hstep : step { s with inputs := [input], responses := [] } with
  | next u =>
    have hin : u.inputs = [] := step_inputs rfl hstep
    refine ⟨?_, ?_, ⟨u.responses, rfl, rfl⟩, rfl⟩
    · simp only [State.between, hin, List.nil_append]
    · simp only [State.between, hin, List.nil_append]
  | fault f => rfl
  | refused r => exact absurd hstep (step_ne_refused _ r)

end Sys2Proof.Machine
end

section
/-! PROOFS. Decoding and encoding (30_encoding.md R71 to R74). -/

namespace Sys2Proof.Laws

open Sys2Proof

/-- Every command's transaction is the command of its opcode's row (30_encoding.md R73). -/
theorem legalEncoding (i : Instr) : LegalEncoding.Statement i := by
  open LegalEncoding in
  cases i with
  | nop => exact nop
  | clear => exact clear
  | writeBits w v => exact writeBits w v
  | writeUnary n => exact writeUnary n
  | align => exact align
  | finish => exact finish
  | readOut addr => exact readOut addr
  | readReg reg => exact readReg reg
  | loadRes idx val => exact loadRes idx val
  | riceChoose k start count => exact riceChoose k start count
  | riceEncode k start count => exact riceEncode k start count
  | ricePartition pmin pmax pred bs => exact ricePartition pmin pmax pred bs
  | riceEmit => exact riceEmit
  | readKtab idx => exact readKtab idx
  | frameHeader strat bs rate ch bps num => exact frameHeader strat bs rate ch bps num
  | seqSet sstrat next => exact seqSet sstrat next

/-- A row reads back each operand from the place where the encoder puts it (30_encoding.md R74). -/
theorem operands_encode {i : Instr} {r : OpcodeRow} (hr : opcodeTable[LegalEncoding.opcode i]? = some r) :
    r.operands (encode i) = i := by
  cases i with cases hr
  | nop | clear | writeUnary | align | finish | riceEmit => rfl
  | writeBits | readOut | readReg | loadRes | riceChoose | riceEncode | ricePartition | readKtab | frameHeader
  | seqSet =>
    simp only [encode, BitVec.extractLsb'_append_eq_right, BitVec.extractLsb'_append_eq_of_le, Nat.reduceLeDiff,
      Nat.reduceSub]

/-- Settles O1: the encoding matches its command's row, and that row reads the operands back. -/
theorem decodeEncodeAgree : Obligations.DecodeEncodeAgree := by
  intro i
  obtain ⟨r, hr, hdec⟩ := decode_encode_row (legalEncoding i)
  rw [hdec, operands_encode hr]

/-! ### A word from its fields -/

section Fields

variable {w a b lo : Nat} {x : BitVec a} {y : BitVec b}

/-- A word that a row's mask covers is the row's pattern. -/
theorem word_of_masked {v mask pattern c : BitVec w} (h : v &&& mask = pattern)
    (hc : mask = BitVec.allOnes w ∧ pattern = c) : c = v := by
  obtain ⟨rfl, rfl⟩ := hc
  rw [← h, BitVec.and_allOnes]

/-- A field that a row's mask covers is the field of the row's pattern. -/
theorem field_of_masked {v mask pattern : BitVec w} (h : v &&& mask = pattern)
    (hx : field lo a mask = BitVec.allOnes a ∧ field lo a pattern = x) : x = field lo a v := by
  obtain ⟨hm, rfl⟩ := hx
  rw [field, ← h, BitVec.extractLsb'_and, show BitVec.extractLsb' lo a mask = _ from hm, BitVec.and_allOnes]

/-- Two neighbouring fields make one. -/
theorem field_of_fields {v : BitVec w} (hx : x = field (lo + b) a v) (hy : y = field lo b v) :
    x ++ y = field lo (a + b) v := by
  rw [hx, hy, BitVec.extractLsb'_append_extractLsb'_eq_extractLsb' rfl]

theorem word_of_fields {v : BitVec (a + b)} (hx : x = field b a v) (hy : y = field 0 b v) : x ++ y = v := by
  rw [hx, hy, BitVec.extractLsb'_append_extractLsb']

end Fields

theorem transaction_eq {t : Transaction} {cmd : BitVec 32} {arg : BitVec 64} (hcmd : cmd = t.cmd) (harg : arg = t.arg) :
    ⟨cmd, arg⟩ = t := by
  rw [hcmd, harg]

/-- A transaction that a row matches is the encoding of the command the row reads from it: the reserved bits are the
row's, and the encoder puts the operands back where they stood (30_encoding.md R72, R74). -/
theorem encode_operands {t : Transaction} {n : Nat} {r : OpcodeRow} (hr : opcodeTable[n]? = some r)
    (hc : t.cmd &&& r.mask = r.pattern) (ha : t.arg &&& r.argZero = 0) : encode (r.operands t) = t := by
  have hn := row_index_lt hr
  interval_cases n <;> cases hr
  · -- NOP
    exact transaction_eq (word_of_masked hc (by decide)) (word_of_masked ha (by decide))
  · -- CLEAR
    exact transaction_eq (word_of_masked hc (by decide)) (word_of_masked ha (by decide))
  · -- WRITE_BITS
    exact transaction_eq (word_of_fields (field_of_masked hc (by decide)) rfl) rfl
  · -- WRITE_UNARY
    exact transaction_eq (word_of_masked hc (by decide)) rfl
  · -- ALIGN
    exact transaction_eq (word_of_masked hc (by decide)) (word_of_masked ha (by decide))
  · -- FINISH
    exact transaction_eq (word_of_masked hc (by decide)) (word_of_masked ha (by decide))
  · -- READ_OUT
    exact transaction_eq (word_of_masked hc (by decide)) (word_of_fields (field_of_masked ha (by decide)) rfl)
  · -- READ_REG
    exact transaction_eq (word_of_fields (field_of_masked hc (by decide)) rfl) (word_of_masked ha (by decide))
  · -- LOAD_RES
    exact transaction_eq
      (word_of_fields (field_of_masked hc (by decide)) rfl)
      (word_of_fields (field_of_masked ha (by decide)) rfl)
  · -- RICE_CHOOSE
    exact transaction_eq
      (word_of_fields (field_of_masked hc (by decide)) rfl)
      (word_of_fields (field_of_fields (field_of_masked ha (by decide)) rfl) rfl)
  · -- RICE_ENCODE
    exact transaction_eq
      (word_of_fields (field_of_masked hc (by decide)) rfl)
      (word_of_fields (field_of_fields (field_of_masked ha (by decide)) rfl) rfl)
  · -- RICE_PARTITION
    exact transaction_eq
      (word_of_fields (field_of_fields (field_of_fields (field_of_masked hc (by decide)) rfl) rfl) rfl)
      (word_of_fields (field_of_masked ha (by decide)) rfl)
  · -- RICE_EMIT
    exact transaction_eq (word_of_masked hc (by decide)) (word_of_masked ha (by decide))
  · -- READ_KTAB
    exact transaction_eq (word_of_masked hc (by decide)) (word_of_fields (field_of_masked ha (by decide)) rfl)
  · -- FRAME_HEADER
    exact transaction_eq
      (word_of_fields
        (field_of_fields (field_of_fields (field_of_fields (field_of_masked hc (by decide)) rfl) rfl) rfl)
        (field_of_masked hc (by decide)))
      (word_of_fields (field_of_fields (field_of_fields (field_of_masked ha (by decide)) rfl) rfl) rfl)
  · -- SEQ_SET
    exact transaction_eq
      (word_of_fields (field_of_masked hc (by decide)) rfl)
      (word_of_fields (field_of_masked ha (by decide)) rfl)

/-- Settles O2: the transaction is matched by a row, and it is the encoding of what that row reads. -/
theorem encodeDecodeAgree : Obligations.EncodeDecodeAgree := by
  intro t i h
  obtain ⟨n, r, hr, hc, ha, rfl⟩ := row_of_decode h
  exact encode_operands hr hc ha

/-- A row that matches a word is the row of the word's opcode. -/
theorem index_of_masked {n : Nat} {r : OpcodeRow} {cmd : BitVec 32} (hr : opcodeTable[n]? = some r)
    (h : cmd &&& r.mask = r.pattern) : n = (opcodeOf cmd).toNat := by
  rw [opcodeOf_of_masked hr h, opcodeOf_pattern hr]

/-- Settles O3: a matching row is the one found by the opcode, so that it decodes, and no two rows match. -/
theorem decodeIsRowMatch : Obligations.DecodeIsRowMatch := by
  intro t
  refine ⟨fun i => ⟨fun h => ?_, ?_⟩, fun m n r r' hm hn h h' => ?_⟩
  · obtain ⟨n, r, hr, hc, ha, hi⟩ := row_of_decode h
    exact ⟨r, List.mem_of_getElem? hr, hc, ha, hi⟩
  · rintro ⟨r, hmem, hc, ha, rfl⟩
    obtain ⟨n, hr⟩ := List.getElem?_of_mem hmem
    exact decode_of_row hr hc ha
  · rw [index_of_masked hm h, index_of_masked hn h']

/-- Settles O4: each word is the encoding of its command. -/
theorem decodedWords : Obligations.DecodedWords :=
  ⟨decodeEncodeAgree .nop, decodeEncodeAgree (.writeBits 64 0x8000000000000001), decodeEncodeAgree (.writeUnary 12),
    decodeEncodeAgree (.readOut 0x80000005), decodeEncodeAgree (.readReg 14),
    decodeEncodeAgree (.loadRes 65534 0x80000000), decodeEncodeAgree (.riceEncode 3 4 8),
    decodeEncodeAgree (.ricePartition 0 1 2 8), decodeEncodeAgree (.readKtab 0x7FFF),
    decodeEncodeAgree (.frameHeader 1 1000 48000 10 24 13288), decodeEncodeAgree (.seqSet 2 68719476735)⟩

end Sys2Proof.Laws
end

section
/-! PROOFS. The assembler (30_encoding.md R79). -/

namespace Sys2Proof.Machine

open Sys2Proof.Laws

theorem toInt_ofInt_of_fits {val : Int} (h : -2 ^ 31 ≤ val ∧ val ≤ 2 ^ 31 - 1) :
    (BitVec.ofInt 32 val).toInt = val :=
  BitVec.toInt_ofInt_eq_self (by decide) h.1 (by omega)

/-- Operands that fit their fields are kept. -/
theorem asmLine_asmInstr {l : AsmLine} (h : l.wellFormed = true) : asmLine (asmInstr l) = l := by
  cases l with simp only [AsmLine.wellFormed, fitsField, decide_eq_true_eq] at h
  | nop | clear | align | finish | riceEmit => rfl
  | loadRes idx val => simp only [asmInstr, asmLine, toNat_ofNat_of_lt h.1, toInt_ofInt_of_fits h.2]
  | writeBits | writeUnary | readOut | readReg | riceChoose | riceEncode | ricePartition | readKtab | frameHeader
  | seqSet => simp only [asmInstr, asmLine, toNat_ofNat_of_lt, h]

/-- An operand written as its own number is that operand again. -/
theorem asmInstr_asmLine (i : Instr) : asmInstr (asmLine i) = i := by
  cases i <;> simp only [asmInstr, asmLine, BitVec.ofNat_toNat, BitVec.setWidth_eq, BitVec.ofInt_toInt]

/-- The operands of a command fit their fields. -/
theorem asmLine_wellFormed (i : Instr) : (asmLine i).wellFormed = true := by
  cases i with simp only [asmLine, AsmLine.wellFormed, fitsField, BitVec.isLt, true_and, decide_true, decide_eq_true_eq]
  | loadRes idx val => exact ⟨BitVec.le_toInt val, by have := BitVec.toInt_lt (x := val); omega⟩

theorem assemble_of_wellFormed {l : AsmLine} (h : l.wellFormed = true) : assemble l = some (encode (asmInstr l)) :=
  if_pos h

theorem assemble_isSome (l : AsmLine) : (assemble l).isSome = l.wellFormed := by
  unfold assemble
  cases l.wellFormed <;> rfl

/-- Settles O5: the operands that fit are kept by the assembler, and by the decoder because encoding loses nothing. -/
theorem assemblerKeepsOperands : Obligations.AssemblerKeepsOperands := by
  refine ⟨assemble_isSome, fun l h => ⟨asmLine_asmInstr h, ?_⟩, fun i => ?_⟩
  · rw [assemble_of_wellFormed h, Option.map_some, decodeEncodeAgree]
  · rw [assemble_of_wellFormed (asmLine_wellFormed i), asmInstr_asmLine]

end Sys2Proof.Machine
end

section
/-! PROOFS. The bounds of the costs (41_rice.md R141) and the packed responses (30_encoding.md R78). -/

namespace Sys2Proof.Machine

variable {s t : State}

/-- A word shifted above a shorter one: neither loses a bit. -/
theorem toNat_shiftLeft_or {a b : BitVec 64} {n : Nat} (hb : b.toNat < 2 ^ n) (ha : a.toNat * 2 ^ n < 2 ^ 64) :
    ((a <<< n) ||| b).toNat = a.toNat * 2 ^ n + b.toNat := by
  rw [BitVec.toNat_or, BitVec.toNat_shiftLeft, Nat.shiftLeft_eq, Nat.mod_eq_of_lt ha, ← Nat.shiftLeft_eq,
    Nat.shiftLeft_add_eq_or_of_lt hb]

theorem toNat_zext64 {w : Nat} (v : BitVec w) (h : w ≤ 64) : (zext64 v).toNat = v.toNat :=
  BitVec.toNat_setWidth_of_le h

theorem toNat_ofNat_lt {w n bound : Nat} (h : n < bound) : (BitVec.ofNat w n).toNat < bound := by
  rw [BitVec.toNat_ofNat]
  exact (Nat.mod_le _ _).trans_lt h

/-- The packing of RICE_CHOOSE's response. -/
theorem toNat_packChoose {cost : BitVec 64} (k : BitVec 5) (hcost : cost.toNat < 2 ^ 48) :
    ((cost <<< 8) ||| zext64 k).toNat = cost.toNat * 2 ^ 8 + k.toNat := by
  have hk := toNat_zext64 k (by decide)
  rw [toNat_shiftLeft_or (by omega) (by omega), hk]

/-- The packing of RICE_PARTITION's response. -/
theorem toNat_packPartition {cost : BitVec 64} (m : BitVec 1) (p : BitVec 4) (hcost : cost.toNat < 2 ^ 49) :
    ((cost <<< 8) ||| (zext64 m <<< 4) ||| zext64 p).toNat = cost.toNat * 2 ^ 8 + m.toNat * 2 ^ 4 + p.toNat := by
  have hm := toNat_zext64 m (by decide)
  have hp := toNat_zext64 p (by decide)
  have hlow : ((zext64 m <<< 4) ||| zext64 p).toNat = m.toNat * 2 ^ 4 + p.toNat := by
    rw [toNat_shiftLeft_or (by omega) (by omega), hm, hp]
  rw [BitVec.or_assoc, toNat_shiftLeft_or (by omega) (by omega), hlow, Nat.add_assoc]

/-- The least cost is no more than that of parameter 0, and so 48 bits hold it (41_rice.md R141). -/
theorem bestParameter_cost_lt (kmax : Nat) {words : List (BitVec 32)} (hlen : words.length < 2 ^ 16) :
    (bestParameter kmax ((words.map sext32).map fold)).2 < 2 ^ 48 := by
  obtain ⟨-, hcost, hleast, -⟩ := bestParameter_spec kmax ((words.map sext32).map fold)
  have hzero := hleast 0 (Nat.zero_le _)
  have hbound := riceCost_zero_le _ (fold_words_lt words)
  simp only [List.length_map] at hbound
  omega

/-- A command that leaves FAULT 0 was neither suppressed nor faulted. -/
theorem effect_of_exec {i : Instr} (h : exec i s = .next t) (ht : t.fault = 0) : s.fault = 0 ∧ Effect i s t := by
  rcases exec_cases h with ⟨hs, rfl⟩ | ⟨-, c, -, rfl⟩ | ⟨-, he⟩
  · exact absurd ht hs
  · exact absurd ht c.code_ne_zero
  · exact ⟨(effect_fault he).symm.trans ht, he⟩

theorem State.answered_responses_of_clear (v : BitVec 64) (hs : s.fault = 0) :
    (s.answered v).responses = { fault := 0, resp := v } :: s.responses := by
  rw [State.answered_responses, hs]

theorem riceChoose_packed {k : BitVec 5} {start count : BitVec 16} (hs : s.fault = 0)
    (h : Effect (.riceChoose k start count) s t) :
    ∃ v, t.responses = { fault := 0, resp := v } :: s.responses ∧ t.rcCost.toNat < 2 ^ 48 ∧
      v.toNat = t.rcCost.toNat * 2 ^ 8 + t.rcK.toNat := by
  obtain ⟨-, -, -, words, hw, rfl⟩ := h
  have hlen := ((Memory.readRange_eq_some_iff _ _ _ _).mp hw).1
  have hcost := bestParameter_cost_lt k.toNat (hlen ▸ count.isLt)
  have hreg := toNat_ofNat_lt (w := 64) hcost
  exact ⟨_, State.answered_responses_of_clear _ hs, hreg, toNat_packChoose _ hreg⟩

theorem ricePartition_packed {pmin pmax : BitVec 4} {pred : BitVec 6} {bs : BitVec 16} (hs : s.fault = 0)
    (h : Effect (.ricePartition pmin pmax pred bs) s t) :
    ∃ v, t.responses = { fault := 0, resp := v } :: s.responses ∧ t.rpCost.toNat < 2 ^ 49 ∧
      v.toNat = t.rpCost.toNat * 2 ^ 8 + t.rpMethod.toNat * 2 ^ 4 + t.rpOrder.toNat := by
  obtain ⟨-, -, -, -, p, ps, words, hp, hw, rfl⟩ := h
  have hlen := ((Memory.readRange_eq_some_iff _ _ _ _).mp hw).1
  obtain ⟨m, q, -, hq, hc⟩ := choosePartition_eq_candidate hp ((words.map sext32).map fold)
  have hcost := candidate_cost_lt m hq bs.isLt (by simpa using hlen) (fold_words_lt words)
  rw [← hc] at hcost
  have hreg := toNat_ofNat_lt (w := 64) hcost
  exact ⟨_, State.answered_responses_of_clear _ hs, hreg, toNat_packPartition _ _ hreg⟩

/-- Settles O42: the cost fits its bound whatever the residuals are, and so the fields of the response do not meet. -/
theorem packedResponsesLoseNoBits : Obligations.PackedResponsesLoseNoBits := by
  refine ⟨fun k start count s t h ht => ?_, fun pmin pmax pred bs s t h ht => ?_⟩
  · obtain ⟨hs, he⟩ := effect_of_exec h ht
    exact riceChoose_packed hs he
  · obtain ⟨hs, he⟩ := effect_of_exec h ht
    exact ricePartition_packed hs he

end Sys2Proof.Machine
end

section
/-! PROOFS. The BitWriter commands (40_bitwriter.md): when each faults, what it appends and answers. -/

namespace Sys2Proof.Machine

variable {s t : State}

/-! ### Gate, checks and `Append` with FAULT 0 -/

/-- A gated command runs its body when FAULT is 0 and every check holds. -/
theorem gated_of_pass {checks : List Check} {body : Unit → Result} (hs : s.fault = 0)
    (hchecks : ∀ chk ∈ checks, chk.1 = true) : (gate s fun _ => checked checks s body) = body () := by
  rw [gate_of_clear _ hs, checked_of_pass hchecks]

/-- A gated command raises the fault of its first failing check (60_exceptions.md R225). -/
theorem gated_of_failure {checks : List Check} {body : Unit → Result} {c : FaultCode} (hs : s.fault = 0)
    (hfail : firstFailure checks = some c) : (gate s fun _ => checked checks s body) = .next (s.faulted c.code) := by
  rw [gate_of_clear _ hs, checked, hfail]
  exact raiseFault_of_clear c hs

/-- A gated command whose first check is that the buffer is open raises STATE in a finished one. -/
theorem gated_of_finished {rest : List Check} {body : Unit → Result} (hs : s.fault = 0) (hf : s.wstate = .finished) :
    (gate s fun _ => checked ((s.wstate = .opened, .state) :: rest) s body) = .next (s.faulted 2) :=
  gated_of_failure (c := .state) hs (by simp [firstFailure, hf])

/-- A command that is not a read is suppressed while FAULT is nonzero (60_exceptions.md R223). -/
theorem exec_of_faulted {i : Instr} (hi : isRead i = false) (hs : s.fault ≠ 0) : exec i s = .next (s.answered 0) := by
  rcases exec_answersOrStops i s with ⟨t, h⟩ | ⟨-, h0, -⟩
  · rcases exec_cases h with ⟨-, rfl⟩ | ⟨h0, -⟩ | ⟨hread | h0, -⟩
    · exact h
    · exact absurd h0 hs
    · cases hi.symm.trans hread
    · exact absurd h0 hs
  · exact absurd h0 hs

/-- Every appending command checks first that the buffer is open (40_bitwriter.md R103). -/
theorem exec_of_finished {i : Instr} (hi : appends i = true) (hs : s.fault = 0) (hf : s.wstate = .finished) :
    exec i s = .next (s.faulted 2) := by
  cases i with
  | writeBits | writeUnary | align | finish | riceEncode | riceEmit | frameHeader => exact gated_of_finished hs hf
  | nop | clear | readOut | readReg | loadRes | riceChoose | ricePartition | readKtab | seqSet => cases hi

theorem append_of_full_of_clear {n : Nat} {bits : Unit → Bits} {done : State → Result} (hs : s.fault = 0)
    (hfull : s.exceedsCapacity n) : append n bits s done = .next (s.faulted 5) :=
  (append_of_full hfull).trans (raiseFault_of_clear .capacity hs)

/-- `Append` within the capacity, and the exact new `BITLEN` for an answer. -/
theorem append_respondBitLen_of_fits {n : Nat} {bits : Unit → Bits} (hn : (bits ()).length = n)
    (hfit : ¬ s.exceedsCapacity n) :
    append n bits s respondBitLen =
      .next (({ s with out := s.out ++ bits () } : State).answered (BitVec.ofNat 64 (s.bitLen + n))) := by
  subst hn
  rw [append_of_fits hfit, respondBitLen_after hfit]

/-! ### WRITE_BITS -/

/-- A word is its upper part over zeros, or-ed with its low field at the word's width. -/
theorem append_eq_or_setWidth {m n : Nat} (x : BitVec m) (y : BitVec n) :
    x ++ y = (x ++ 0#n) ||| y.setWidth (m + n) := by
  refine BitVec.eq_of_getLsbD_eq fun i hi => ?_
  by_cases hlow : i < n
  · simp only [BitVec.getLsbD_or, BitVec.getLsbD_append, BitVec.getLsbD_setWidth, BitVec.getLsbD_zero, hlow, hi,
      decide_true, Bool.true_and, Bool.false_or, if_true]
  · simp [BitVec.getLsbD_append, hlow, BitVec.getLsbD_of_ge y i (by omega)]

theorem encode_writeBits (w : BitVec 7) (v : BitVec 64) :
    encode (.writeBits w v) = ⟨0x08000000 ||| w.setWidth 32, v⟩ := by
  rw [encode, append_eq_or_setWidth]
  rfl

/-- A width outside 1..64 fails the second check, and a value that does not fit the width fails the third: both raise
OVERFLOW. -/
theorem exec_writeBits_of_overflow {w : BitVec 7} {v : BitVec 64} (hs : s.fault = 0) (ho : s.wstate = .opened)
    (h : ¬ (1 ≤ w.toNat ∧ w.toNat ≤ 64) ∨ ¬ v.toNat < 2 ^ w.toNat) :
    exec (.writeBits w v) s = .next (s.faulted 1) := by
  refine gated_of_failure (c := .overflow) hs ?_
  by_cases hw : 1 ≤ w.toNat ∧ w.toNat ≤ 64
  · simp [firstFailure, ho, hw, h.resolve_left (not_not_intro hw)]
  · simp [firstFailure, ho, hw]

/-- When its checks hold, WRITE_BITS is the `Append` of its field. -/
theorem exec_writeBits_of_pass {w : BitVec 7} {v : BitVec 64} (hs : s.fault = 0) (ho : s.wstate = .opened)
    (hlo : 1 ≤ w.toNat) (hhi : w.toNat ≤ 64) (hv : v.toNat < 2 ^ w.toNat) :
    exec (.writeBits w v) s = append w.toNat (fun _ => bitsOf v.toNat w.toNat) s respondBitLen :=
  gated_of_pass hs (by simp [ho, hlo, hhi, hv])

theorem exec_writeBits_of_fits {w : BitVec 7} {v : BitVec 64} (hs : s.fault = 0) (ho : s.wstate = .opened)
    (hlo : 1 ≤ w.toNat) (hhi : w.toNat ≤ 64) (hv : v.toNat < 2 ^ w.toNat) (hfit : ¬ s.exceedsCapacity w.toNat) :
    exec (.writeBits w v) s = .next
      (({ s with out := s.out ++ bitsOf v.toNat w.toNat } : State).answered
        (BitVec.ofNat 64 (s.bitLen + w.toNat))) := by
  rw [exec_writeBits_of_pass hs ho hlo hhi hv, append_respondBitLen_of_fits (length_bitsOf _ _) hfit]

/-- Settles O32: the high part of the field is appended before the low part, which together are the field's bits; what
fits the capacity as a whole fits it in parts. -/
theorem writeBitsSplits : Obligations.WriteBitsSplits := by
  intro a b w v s t hs ha hb hw h ht
  obtain ⟨-, ho, -, hhi, hv, hfit, rfl⟩ := effect_of_exec h ht
  rw [length_bitsOf] at hfit
  have hva : (v >>> b.toNat).toNat < 2 ^ a.toNat := by
    rw [BitVec.toNat_ushiftRight, Nat.shiftRight_eq_div_pow, Nat.div_lt_iff_lt_mul (by positivity), ← pow_add, ← hw]
    exact hv
  have hvb : (BitVec.ofNat 64 (v.toNat % 2 ^ b.toNat)).toNat = v.toNat % 2 ^ b.toNat :=
    toNat_ofNat_of_lt ((Nat.mod_le _ _).trans_lt v.isLt)
  have hfita : ¬ s.exceedsCapacity a.toNat := by
    unfold State.exceedsCapacity at hfit ⊢
    omega
  refine ⟨_, _, exec_writeBits_of_fits hs ho ha (by omega) hva hfita, hs,
    exec_writeBits_of_fits hs ho hb (by omega) ?_ ?_, hs, ?_⟩
  · rw [hvb]
    exact Nat.mod_lt _ (by positivity)
  · simp only [State.exceedsCapacity, State.bitLen, State.answered_out, State.answered_config, List.length_append,
      length_bitsOf] at hfit ⊢
    omega
  · simp only [State.answered_out, hvb, hw, bitsOf_add, bitsOf_mod _ _ _ le_rfl, BitVec.toNat_ushiftRight,
      List.append_assoc]

/-- Settles O27: STATE, OVERFLOW and CAPACITY in the order of the checks, then the append. -/
theorem writeBitsRule : Obligations.WriteBitsRule := by
  intro w v s hs
  refine ⟨encode_writeBits w v, exec_of_finished rfl hs, fun ho hw => ?_, fun ho _ _ hv => ?_,
    fun ho hlo hhi hv hfull => ?_, fun ho hlo hhi hv hfit => ?_⟩
  · exact exec_writeBits_of_overflow hs ho (.inl (by omega))
  · exact exec_writeBits_of_overflow hs ho (.inr hv.not_gt)
  · exact (exec_writeBits_of_pass hs ho hlo hhi hv).trans (append_of_full_of_clear hs hfull)
  · exact exec_writeBits_of_fits hs ho hlo hhi hv hfit.not_gt

/-! ### WRITE_UNARY -/

theorem exec_writeUnary_of_opened {n : BitVec 64} (hs : s.fault = 0) (ho : s.wstate = .opened) :
    exec (.writeUnary n) s = append (n.toNat + 1) (fun _ => zeros n.toNat ++ [true]) s respondBitLen :=
  gated_of_pass hs (by simp [ho])

/-- Settles O28: the capacity is checked on `N + 1`, the length of the code. -/
theorem writeUnaryRule : Obligations.WriteUnaryRule := by
  intro n s hs
  refine ⟨rfl, exec_of_finished rfl hs, fun ho hfull => ?_, fun ho hfit => ?_⟩
  · exact (exec_writeUnary_of_opened hs ho).trans (append_of_full_of_clear hs hfull)
  · exact (exec_writeUnary_of_opened hs ho).trans (append_respondBitLen_of_fits (by simp) hfit.not_gt)

/-- The value 1 in `n + 1` bits is a unary code (40_bitwriter.md R106). -/
theorem bitsOf_one_succ (n : Nat) : bitsOf 1 (n + 1) = zeros n ++ [true] := by
  rw [bitsOf_add, show 1 >>> 1 = 0 by decide, bitsOf_zero]
  rfl

/-- Settles O33: suppressed or in a finished buffer the two agree, and in an open one they append the same bits. -/
theorem unaryIsWriteBits : Obligations.UnaryIsWriteBits := by
  intro n w s hn hw
  by_cases hs : s.fault = 0
  · cases hws : s.wstate with
    | finished => rw [exec_of_finished rfl hs hws, exec_of_finished rfl hs hws]
    | opened =>
      have hone : (1 : BitVec 64).toNat < 2 ^ w.toNat := Nat.one_lt_two_pow (by omega)
      have hbits : bitsOf (1 : BitVec 64).toNat (n.toNat + 1) = zeros n.toNat ++ [true] := bitsOf_one_succ n.toNat
      rw [exec_writeUnary_of_opened hs hws, exec_writeBits_of_pass hs hws (by omega) (by omega) hone, hw, hbits]
  · rw [exec_of_faulted rfl hs, exec_of_faulted rfl hs]

/-! ### ALIGN, FINISH and CLEAR -/

theorem exec_align_of_opened (hs : s.fault = 0) (ho : s.wstate = .opened) :
    exec .align s = append (padLength s.bitLen) (fun _ => zeros (padLength s.bitLen)) s respondBitLen :=
  gated_of_pass hs (by simp [ho])

/-- Settles O29: the pad is the one that completes the byte. -/
theorem alignRule : Obligations.AlignRule := by
  intro s hs
  refine ⟨rfl, exec_of_finished rfl hs, fun ho hfull => ?_, fun ho hfit => ⟨?_, (padLength_spec _).1⟩⟩
  · exact (exec_align_of_opened hs ho).trans (append_of_full_of_clear hs hfull)
  · exact (exec_align_of_opened hs ho).trans (append_respondBitLen_of_fits (length_zeros _) hfit.not_gt)

theorem exec_finish_of_opened (hs : s.fault = 0) (ho : s.wstate = .opened) :
    exec .finish s = append (padLength s.bitLen) (fun _ => zeros (padLength s.bitLen)) s
      fun s => respondOutLen { s with wstate := .finished } :=
  gated_of_pass hs (by simp [ho])

/-- Within the capacity a count of bytes fits `OUT_LEN`'s 32 bits, so that the answer is exact (10_state.md R22). -/
theorem respondOutLen_of_fits (h : s.outLen < 2 ^ 32) :
    respondOutLen s = .next (s.answered (BitVec.ofNat 64 s.outLen)) := by
  rw [respondOutLen, respond_eq, zext64_ofNat h]

theorem exec_finish_of_fits (hs : s.fault = 0) (ho : s.wstate = .opened)
    (hfit : ¬ s.exceedsCapacity (padLength s.bitLen)) :
    exec .finish s = .next
      (({ s with out := s.out ++ zeros (padLength s.bitLen), wstate := .finished } : State).answered
        (BitVec.ofNat 64 ((s.bitLen + padLength s.bitLen) / 8))) := by
  have hlen : State.outLen { s with out := s.out ++ zeros (padLength s.bitLen), wstate := .finished } =
      (s.bitLen + padLength s.bitLen) / 8 := by simp [State.outLen, State.bitLen]
  have hbits := bitLen_fits_of_fits hfit
  rw [exec_finish_of_opened hs ho, append_of_fits hfit, respondOutLen_of_fits (by rw [hlen]; omega), hlen]

/-- Settles O30: FINISH pads as ALIGN does, and in the finished buffer it leaves every append fails its first check. -/
theorem finishRule : Obligations.FinishRule := by
  intro s hs
  refine ⟨rfl, fun hf i hi => exec_of_finished hi hs hf, fun ho hfull => ?_,
    fun ho hfit => ⟨exec_finish_of_fits hs ho hfit.not_gt, (padLength_spec _).1⟩⟩
  exact (exec_finish_of_opened hs ho).trans (append_of_full_of_clear hs hfull)

/-- Settles O31: with FAULT 0 CLEAR has no check of its own. -/
theorem clearRule : Obligations.ClearRule := by
  intro s hs
  exact ⟨rfl, gate_of_clear (fun _ => respond 0 { s with out := [], wstate := .opened }) hs⟩

end Sys2Proof.Machine
end

section
/-! PROOFS. The Rice commands (41_rice.md R130 to R146): their encodings and the residuals they read; then LOAD_RES,
READ_KTAB, folding and RICE_CHOOSE. -/

namespace Sys2Proof.Machine

variable {s : State}

/-! ### Encodings (30_encoding.md R74) -/

/-- A word is its upper part shifted above its low field, both at the word's width. -/
theorem append_eq_shiftLeft_or {m n : Nat} (x : BitVec m) (y : BitVec n) :
    x ++ y = (x.setWidth (m + n) <<< n) ||| y.setWidth (m + n) := by
  rw [← BitVec.setWidth_append_eq_shiftLeft_setWidth_or, BitVec.setWidth_eq]

/-- A field below reserved bits is the field at the word's width. -/
theorem zero_append_eq_setWidth (m : Nat) {n : Nat} (y : BitVec n) : 0#m ++ y = y.setWidth (m + n) := by
  rw [append_eq_or_setWidth, BitVec.zero_append_zero, BitVec.zero_or]

/-- The argument word of format R. -/
theorem argWord_range (start count : BitVec 16) :
    0#32 ++ count ++ start = (count.setWidth 64 <<< 16) ||| start.setWidth 64 := by
  rw [append_eq_shiftLeft_or, zero_append_eq_setWidth, BitVec.setWidth_setWidth (by decide)]

theorem encode_loadRes (idx : BitVec 16) (val : BitVec 32) :
    encode (.loadRes idx val) = ⟨0x20000000 ||| idx.setWidth 32, val.setWidth 64⟩ := by
  rw [encode, append_eq_or_setWidth, zero_append_eq_setWidth]
  rfl

theorem encode_riceChoose (k : BitVec 5) (start count : BitVec 16) :
    encode (.riceChoose k start count) =
      ⟨0x24000000 ||| k.setWidth 32, (count.setWidth 64 <<< 16) ||| start.setWidth 64⟩ := by
  rw [encode, argWord_range, append_eq_or_setWidth]
  rfl

theorem encode_riceEncode (k : BitVec 5) (start count : BitVec 16) :
    encode (.riceEncode k start count) =
      ⟨0x28000000 ||| k.setWidth 32, (count.setWidth 64 <<< 16) ||| start.setWidth 64⟩ := by
  rw [encode, argWord_range, append_eq_or_setWidth]
  rfl

theorem encode_ricePartition (pmin pmax : BitVec 4) (pred : BitVec 6) (bs : BitVec 16) :
    encode (.ricePartition pmin pmax pred bs) =
      ⟨0x2C000000 ||| (pred.setWidth 32 <<< 8) ||| (pmax.setWidth 32 <<< 4) ||| pmin.setWidth 32,
        bs.setWidth 64⟩ := by
  have hcmd : 0x0B#6 ++ 0#12 ++ pred ++ pmax ++ pmin =
      (0x2C000000 : BitVec 32) ||| (pred.setWidth 32 <<< 8) ||| (pmax.setWidth 32 <<< 4) ||| pmin.setWidth 32 := by
    rw [append_eq_shiftLeft_or]
    simp only [BitVec.setWidth_append_eq_shiftLeft_setWidth_or, BitVec.shiftLeft_or_distrib, ← BitVec.shiftLeft_add]
    rfl
  rw [encode, hcmd, zero_append_eq_setWidth]
  rfl

theorem encode_readKtab (idx : BitVec 15) : encode (.readKtab idx) = ⟨0x34000000, idx.setWidth 64⟩ := by
  rw [encode, zero_append_eq_setWidth]
  rfl

/-! ### The residuals a command reads -/

/-- Residuals that have been written are the words a range read finds, and folded they are `foldedResiduals`. -/
theorem exists_words_of_holdsResiduals {start count : Nat} {rs : Nat → BitVec 32}
    (h : s.holdsResiduals start count rs) :
    ∃ words, s.res.readRange start count = some words ∧ (words.map sext32).map fold = foldedResiduals count rs := by
  refine ⟨(List.range count).map rs, ?_, ?_⟩
  · refine (Memory.readRange_eq_some_iff _ _ _ _).mpr ⟨by simp, fun i hi => ?_⟩
    rw [h i hi, List.getElem?_map, List.getElem?_range hi, Option.map_some]
  · simp [foldedResiduals, sext32]

/-- The end of a command that appends `n` bits and answers `BITLEN`: the capacity decides. -/
theorem append_respondBitLen_rule {n : Nat} {bits : Unit → Bits} {r : Result} (hs : s.fault = 0)
    (hr : r = append n bits s respondBitLen) (hn : (bits ()).length = n) :
    (s.config.outCap.toNat < (s.out.length + n) / 8 → r = .next (s.faulted 5)) ∧
    ((s.out.length + n) / 8 ≤ s.config.outCap.toNat →
      r = .next (({ s with out := s.out ++ bits () } : State).answered (BitVec.ofNat 64 (s.out.length + n)))) :=
  ⟨fun hfull => hr.trans (append_of_full_of_clear hs hfull),
    fun hfit => hr.trans (append_respondBitLen_of_fits hn hfit.not_gt)⟩

/-! ### LOAD_RES and READ_KTAB -/

/-- Settles O35: the range check, then the laws of a memory write. -/
theorem loadResRule : Obligations.LoadResRule := by
  intro idx val s hs
  refine ⟨encode_loadRes idx val, fun hidx => ?_, fun hidx => ?_⟩
  · exact gated_of_failure (c := .range) hs (by simp [firstFailure, resDepth, hidx])
  · exact ⟨_, gated_of_pass hs (by simp [resDepth, hidx]), rfl, Memory.read_write_self _ _ _,
      fun j hj => Memory.read_write_ne _ _ hj⟩

/-- READ_KTAB fails its check of RP_VALID or its check of the index. -/
theorem exec_readKtab_of_failure {idx : BitVec 15} (h : s.rpValid = false ∨ 2 ^ s.rpOrder.toNat ≤ idx.toNat) :
    ∃ c, exec (.readKtab idx) s = raiseFault c s := by
  by_cases hv : s.rpValid = true
  · exact ⟨_, exec_readKtab_of_not_lt hv (h.resolve_left (by simp [hv])).not_gt⟩
  · exact ⟨_, exec_readKtab_of_not_valid hv⟩

/-- Settles O46: a check that fails raises its fault, which keeps a code that FAULT already holds. -/
theorem readKtabRule : Obligations.ReadKtabRule := by
  intro idx s
  refine ⟨encode_readKtab idx, fun hv hs => ?_, fun hv hidx hs => ?_, fun h hs => ?_, fun hv hidx => ?_⟩
  · exact (exec_readKtab_of_not_valid (by simp [hv])).trans (raiseFault_of_clear .state hs)
  · exact (exec_readKtab_of_not_lt hv hidx.not_gt).trans (raiseFault_of_clear .range hs)
  · obtain ⟨c, hc⟩ := exec_readKtab_of_failure h
    exact hc.trans (raiseFault_of_faulted c hs)
  · exact exec_readKtab_of_lt hv hidx

/-! ### Folding -/

/-- The sign of a word in every bit. -/
theorem sshiftRight_31 (v : BitVec 32) : v.sshiftRight 31 = if v.msb then BitVec.allOnes 32 else 0#32 := by
  have hlt := v.isLt
  apply BitVec.eq_of_toNat_eq
  cases hmsb : v.msb with
  | false =>
    have hlow := BitVec.msb_eq_false_iff_two_mul_lt.mp hmsb
    rw [BitVec.sshiftRight_eq_of_msb_false hmsb, if_neg Bool.false_ne_true, BitVec.toNat_ushiftRight,
      Nat.shiftRight_eq_div_pow, BitVec.toNat_ofNat]
    omega
  | true =>
    have hhigh := BitVec.msb_eq_true_iff_two_mul_ge.mp hmsb
    rw [BitVec.sshiftRight_eq_of_msb_true hmsb, if_pos rfl, BitVec.toNat_not, BitVec.toNat_ushiftRight,
      BitVec.toNat_not, Nat.shiftRight_eq_div_pow, BitVec.toNat_allOnes]
    omega

theorem fold_toInt (v : BitVec 32) :
    fold v.toInt = if v.msb then 2 ^ 33 - 1 - 2 * v.toNat else 2 * v.toNat := by
  have hlt := v.isLt
  have hint := BitVec.toInt_eq_msb_cond v
  unfold fold
  split_ifs at hint ⊢ <;> omega

/-- Folding a word shifts it left by one and, for a negative one, complements it (41_rice.md R131). -/
theorem ofNat_fold_toInt (v : BitVec 32) : BitVec.ofNat 32 (fold v.toInt) = (v <<< 1) ^^^ v.sshiftRight 31 := by
  rw [fold_toInt, sshiftRight_31]
  apply BitVec.eq_of_toNat_eq
  cases hmsb : v.msb with
  | false =>
    rw [if_neg Bool.false_ne_true, if_neg Bool.false_ne_true, BitVec.xor_zero, BitVec.toNat_ofNat,
      BitVec.toNat_shiftLeft, Nat.shiftLeft_eq, Nat.mul_comm]
  | true =>
    have hlt := v.isLt
    have hhigh := BitVec.msb_eq_true_iff_two_mul_ge.mp hmsb
    rw [if_pos rfl, if_pos rfl, BitVec.xor_allOnes, BitVec.toNat_ofNat, BitVec.toNat_not, BitVec.toNat_shiftLeft,
      Nat.shiftLeft_eq]
    omega

/-- Settles O36: the bounds are the cases of the sign, the inverses the laws of `fold` and `unfold`. -/
theorem foldIsZigZagBijection : Obligations.FoldIsZigZagBijection := by
  refine ⟨fun r => ?_, fun r hlo hhi => ⟨?_, unfold_fold r⟩, fun u hu => ?_, ofNat_fold_toInt⟩
  · unfold fold; split <;> omega
  · unfold fold; split <;> omega
  · have hrange : -2 ^ 31 ≤ unfold u ∧ unfold u ≤ 2 ^ 31 - 1 := by unfold unfold; split <;> omega
    refine ⟨hrange.1, hrange.2, fold_unfold u, fun heven => if_pos heven, fun hodd => if_neg (by omega)⟩

/-! ### RICE_CHOOSE -/

/-- What RICE_CHOOSE does when its checks hold and its residuals have been written. -/
theorem exec_riceChoose_of_words {k : BitVec 5} {start count : BitVec 16} {words : List (BitVec 32)}
    {us : List Nat} (hs : s.fault = 0) (hk : k.toNat ≤ 30) (hcount : 1 ≤ count.toNat)
    (hdepth : start.toNat + count.toNat ≤ 65535) (hw : s.res.readRange start.toNat count.toNat = some words)
    (hus : (words.map sext32).map fold = us) :
    let best := bestParameter k.toNat us
    exec (.riceChoose k start count) s = .next
      (({ s with rcK := BitVec.ofNat 5 best.1, rcCost := BitVec.ofNat 64 best.2 } : State).answered
        ((BitVec.ofNat 64 best.2 <<< 8) ||| zext64 (BitVec.ofNat 5 best.1))) := by
  subst hus
  exact (gated_of_pass hs (by simp [hk, hcount, resDepth, hdepth])).trans (withResiduals_of_some hw)

/-- Settles O37: the checks in order, and the least parameter of least cost, which its register holds whole. -/
theorem riceChooseRule : Obligations.RiceChooseRule := by
  intro k start count s rs hs
  refine ⟨encode_riceChoose k start count, fun hk => ?_, fun hk hcount => ?_, fun hk hcount hdepth => ?_,
    fun hk hcount hdepth hres => ?_⟩
  · exact gated_of_failure (c := .riceParam) hs (by simp [firstFailure, hk])
  · exact gated_of_failure (c := .empty) hs (by simp [firstFailure, hk, hcount])
  · exact gated_of_failure (c := .range) hs (by simp [firstFailure, hk, hcount, resDepth, hdepth.not_ge])
  · obtain ⟨words, hw, hus⟩ := exists_words_of_holdsResiduals hres
    have hexec := exec_riceChoose_of_words hs hk hcount hdepth hw hus
    have hlen := ((Memory.readRange_eq_some_iff _ _ _ _).mp hw).1
    have hfits := bestParameter_cost_lt k.toNat (hlen ▸ count.isLt)
    rw [hus] at hfits
    obtain ⟨hbest, hcost, hle, hlt⟩ := bestParameter_spec k.toNat (foldedResiduals count.toNat rs)
    have hrcK := toNat_ofNat_of_lt (w := 5) (n := (bestParameter k.toNat (foldedResiduals count.toNat rs)).1) (by omega)
    have hrcCost := toNat_ofNat_of_lt (w := 64) (hfits.trans (by decide))
    refine ⟨_, hexec, rfl, ?_⟩
    simp only [State.answered_rcK, State.answered_rcCost, hrcK, hrcCost]
    exact ⟨hbest, hcost, hle, hlt⟩

end Sys2Proof.Machine
end

section
/-! PROOFS. The Rice commands that append: RICE_ENCODE (41_rice.md R135) and RICE_EMIT (41_rice.md R143), and the
section RICE_EMIT appends: its length (R144), and that the reader recovers the residuals from it (R145). -/

namespace Sys2Proof.Machine

variable {s : State}

/-! ### RICE_ENCODE -/

/-- The code word with its three parts written out (41_rice.md R132). -/
theorem riceBits_eq (u k : Nat) :
    riceBits u k = List.replicate (u >>> k) false ++ [true] ++ bitsOf (u % 2 ^ k) k := by
  rw [riceBits, zeros, List.append_assoc, List.singleton_append]

/-- RICE_ENCODE is the `Append` of its code words when its checks hold and its residuals have been written. -/
theorem exec_riceEncode_of_words {k : BitVec 5} {start count : BitVec 16} {words : List (BitVec 32)}
    {us : List Nat} (hs : s.fault = 0) (ho : s.wstate = .opened) (hk : k.toNat ≤ 30) (hcount : 1 ≤ count.toNat)
    (hdepth : start.toNat + count.toNat ≤ 65535) (hw : s.res.readRange start.toNat count.toNat = some words)
    (hus : (words.map sext32).map fold = us) :
    exec (.riceEncode k start count) s =
      append (riceCost us k.toNat) (fun _ => riceCode us k.toNat) s respondBitLen := by
  subst hus
  exact (gated_of_pass hs (by simp [ho, hk, hcount, resDepth, hdepth])).trans (withResiduals_of_some hw)

/-- Settles O38: the checks in order, then the code words, whose cost is their length. -/
theorem riceEncodeRule : Obligations.RiceEncodeRule := by
  intro k start count s rs hs us cost
  refine ⟨encode_riceEncode k start count, exec_of_finished rfl hs, fun ho hk => ?_, fun ho hk hcount => ?_,
    fun ho hk hcount hdepth => ?_, fun ho hk hcount hdepth hres => ?_⟩
  · exact gated_of_failure (c := .riceParam) hs (by simp [firstFailure, ho, hk])
  · exact gated_of_failure (c := .empty) hs (by simp [firstFailure, ho, hk, hcount])
  · exact gated_of_failure (c := .range) hs (by simp [firstFailure, ho, hk, hcount, resDepth, hdepth.not_ge])
  · obtain ⟨words, hw, hus⟩ := exists_words_of_holdsResiduals hres
    have hexec := exec_riceEncode_of_words hs ho hk hcount hdepth hw hus
    simp only [riceCode, riceBits_eq] at hexec
    exact append_respondBitLen_rule hs hexec (by simpa only [riceCode, riceBits_eq] using length_riceCode us k.toNat)

/-! ### RICE_EMIT -/

/-- RICE_EMIT is the `Append` of its section when its checks hold and the block's residuals have been written. -/
theorem exec_riceEmit_of_words {words : List (BitVec 32)} {us : List Nat} (hs : s.fault = 0)
    (ho : s.wstate = .opened) (hv : s.rpValid = true)
    (hw : s.res.readRange 0 (s.rpBlockSize.toNat - s.rpPred.toNat) = some words)
    (hus : (words.map sext32).map fold = us) :
    exec .riceEmit s = append (s.sectionLength us) (fun _ => s.sectionOf us) s respondBitLen := by
  subst hus
  exact (gated_of_pass hs (by simp [ho, hv])).trans (withResiduals_of_some hw)

theorem State.length_sectionOf (s : State) (us : List Nat) : (s.sectionOf us).length = s.sectionLength us :=
  length_sectionBits _ _ _ _ _ _

/-- Settles O43: the checks in order, then the section, written out down to its bits. -/
theorem riceEmitRule : Obligations.RiceEmitRule := by
  intro s rs hs n us m bits
  refine ⟨rfl, exec_of_finished rfl hs, fun ho hv => ?_, fun ho hv hres => ?_⟩
  · exact gated_of_failure (c := .state) hs (by simp [firstFailure, ho, hv])
  · obtain ⟨words, hw, hus⟩ := exists_words_of_holdsResiduals hres
    have hexec := exec_riceEmit_of_words hs ho hv hw hus
    have hbits : s.sectionOf us = bits := by
      simp only [State.sectionOf, sectionBits, partitionBits, riceCode, riceBits_eq]
      rfl
    rw [← s.length_sectionOf, hbits] at hexec
    exact append_respondBitLen_rule hs hexec rfl

/-- RP_COST is the length of the section that RICE_EMIT appends (10_state.md R29, 41_rice.md R144). -/
theorem State.PartitionOk.exists_words (h : s.PartitionOk) :
    ∃ words, s.res.readRange 0 (s.rpBlockSize.toNat - s.rpPred.toNat) = some words ∧
      s.sectionLength ((words.map sext32).map fold) = s.rpCost.toNat := by
  obtain ⟨words, hw, hcost⟩ := h.section_cost
  exact ⟨words, hw, by rw [hcost, List.map_map]; rfl⟩

/-- Settles O44: under the invariant the block's residuals have been written, and RP_COST is their section's length. -/
theorem emitLengthIsRpCost : Obligations.EmitLengthIsRpCost := by
  intro s hi hs ho hv
  obtain ⟨words, hw, hcost⟩ := (hi.partition hv).exists_words
  have hlen := (s.length_sectionOf ((words.map sext32).map fold)).trans hcost
  have hexec := exec_riceEmit_of_words hs ho hv hw rfl
  rw [hcost] at hexec
  obtain ⟨hfull, hfit⟩ := append_respondBitLen_rule hs hexec hlen
  exact ⟨hfull, fun h => ⟨_, hlen, hfit h⟩⟩

/-! ### Reading the section back -/

theorem partitionSlice_map {α β : Type} (f : α → β) (bs pred p j : Nat) (us : List α) :
    partitionSlice bs pred p j (us.map f) = (partitionSlice bs pred p j us).map f := by
  simp only [partitionSlice, List.map_take, List.map_drop]

/-- A parameter of the method's range fits its field, below the escape value (41_rice.md R138). -/
theorem lt_two_pow_methodBits {m k : Nat} (h : k ≤ methodKmax m) : k < 2 ^ methodBits m := by
  unfold methodKmax at h
  unfold methodBits
  split_ifs at h ⊢ <;> omega

/-- The reader undoes one partition: its parameter field, then its code words. -/
theorem readPartitions_succ {m p bs pred j n k : Nat} {vs rs : List Int} {bits rest : Bits} (hk : k ≤ methodKmax m)
    (hlen : vs.length = partitionHi bs pred p j - partitionLo bs pred p j)
    (hrest : readPartitions m p bs pred (j + 1) n bits = some (rs, rest)) :
    readPartitions m p bs pred j (n + 1) (partitionBits m k (vs.map fold) ++ bits) = some (vs ++ rs, rest) := by
  rw [readPartitions, partitionBits, List.append_assoc, readField_bitsOf (lt_two_pow_methodBits hk)]
  simp only [← hlen, readResiduals_riceCode, hrest]

/-- The reader undoes the partitions from `j` on, one by one. -/
theorem readPartitions_partitionBits {m p bs pred : Nat} {kt : Nat → Nat} {rs : List Int} (rest : Bits)
    (hlegal : legalOrder bs pred p) (hlen : rs.length = bs - pred) (hk : ∀ j < 2 ^ p, kt j ≤ methodKmax m) {j n : Nat}
    (hn : j + n ≤ 2 ^ p) :
    readPartitions m p bs pred j n
        ((List.range' j n).flatMap (fun i => partitionBits m (kt i) (partitionSlice bs pred p i (rs.map fold))) ++
          rest) =
      some ((List.range' j n).flatMap fun i => partitionSlice bs pred p i rs, rest) := by
  induction n generalizing j with
  | zero => rfl
  | succ n ih =>
    rw [List.range'_succ, List.flatMap_cons, List.flatMap_cons, List.append_assoc, partitionSlice_map]
    exact readPartitions_succ (hk j (by omega)) (length_partitionSlice hlegal (by omega) hlen) (ih (by omega))

/-- The reader recovers the residuals from their section, and reads no bit after it (41_rice.md R145). -/
theorem readSection_sectionBits {m p bs pred : Nat} {kt : Nat → Nat} {rs : List Int} (rest : Bits)
    (hm : m < 2 ^ 2) (hlegal : legalOrder bs pred p) (hlen : rs.length = bs - pred)
    (hk : ∀ j < 2 ^ p, kt j ≤ methodKmax m) :
    readSection bs pred (sectionBits m p kt bs pred (rs.map fold) ++ rest) = some (rs, rest) := by
  have hp : p < 2 ^ 4 := by have := hlegal.1; omega
  have hread := readPartitions_partitionBits rest hlegal hlen hk (j := 0) (n := 2 ^ p) (by omega)
  rw [← List.range_eq_range', partitions_cover hlegal rs hlen] at hread
  rw [readSection, sectionBits, List.append_assoc, List.append_assoc, readField_bitsOf hm]
  simp only [readField_bitsOf hp, hread]

/-- Settles O45: what RICE_EMIT appends is a section, and the invariant gives the reader what it needs. -/
theorem emittedSectionReadsBack : Obligations.EmittedSectionReadsBack := by
  intro s t hi hv h ht
  obtain ⟨-, -, -, words, hw, -, rfl⟩ := effect_of_exec h ht
  obtain ⟨hlegal, hparams, -⟩ := hi.partition hv
  refine ⟨s.sectionOf ((words.map sext32).map fold), words, rfl, hw, fun rest => ?_⟩
  have hlen := ((Memory.readRange_eq_some_iff _ _ _ _).mp hw).1
  exact readSection_sectionBits rest (by omega) hlegal (by rwa [List.length_map]) hparams

end Sys2Proof.Machine
end

section
/-! PROOFS. RICE_PARTITION (41_rice.md R139, R140): its faults, and that its choice is the exact optimum. -/

namespace Sys2Proof.Machine

variable {s : State} {pmin pmax : BitVec 4} {pred : BitVec 6} {bs : BitVec 16}

/-- Settles O39: partition 0 is `pred` short of the `bs >> p` that every other partition holds. -/
theorem partitionsTileTheBlock : Obligations.PartitionsTileTheBlock := by
  intro bs pred p us hlegal hlen
  refine ⟨partitions_cover hlegal us hlen, ?_, fun j hj hlt => ?_⟩
  · rw [length_partitionSlice hlegal (by positivity) hlen, partitionHi, partitionLo, if_pos rfl, Nat.zero_add,
      Nat.one_mul, Nat.sub_zero]
  · have hfirst : bs >>> p ≤ j * (bs >>> p) := Nat.le_mul_of_pos_left _ hj
    have hwarm := hlegal.2.2
    rw [length_partitionSlice hlegal hlt hlen, partitionHi, partitionLo, if_neg (by omega), Nat.add_mul]
    omega

/-- Settles O40: the four checks in order, and then an empty list of legal orders. -/
theorem ricePartitionFaults : Obligations.RicePartitionFaults := by
  intro pmin pmax pred bs s hs
  refine ⟨encode_ricePartition pmin pmax pred bs, fun hbs => ?_, fun hbs hpred => ?_, fun hbs hpred hle => ?_,
    fun hpred hlt hmin => ?_, fun hpred hlt hmin hnone => ?_⟩
  · exact gated_of_failure (c := .empty) hs (by simp [firstFailure, hbs])
  · exact gated_of_failure (c := .partition) hs (by simp [firstFailure, hbs, hpred.not_ge])
  · exact gated_of_failure (c := .empty) hs (by simp [firstFailure, hbs, hpred, hle])
  · have hbs : 1 ≤ bs.toNat := by omega
    exact gated_of_failure (c := .partition) hs (by simp [firstFailure, hbs, hpred, hlt, hmin])
  · have hbs : 1 ≤ bs.toNat := by omega
    have hnil : legalOrders bs.toNat pred.toNat pmin.toNat pmax.toNat = [] := by
      refine List.eq_nil_iff_forall_not_mem.mpr fun p hp => ?_
      obtain ⟨hlo, hhi, hlegal⟩ := mem_legalOrders.mp hp
      exact hnone p hlo hhi hlegal
    refine (gated_of_pass hs (by simp [hbs, hpred, hlt, hmin])).trans ?_
    simp only [hnil, raiseFault_of_clear _ hs, FaultCode.code]

/-! ### The choice -/

theorem respondPartition_eq (s : State) : respondPartition s =
    .next (s.answered ((s.rpCost <<< 8) ||| (zext64 s.rpMethod <<< 4) ||| zext64 s.rpOrder)) := rfl

/-- What RICE_PARTITION does when its checks hold and the block's residuals have been written. -/
theorem exec_ricePartition_of_words {p : Nat} {ps us : List Nat} {words : List (BitVec 32)} (hs : s.fault = 0)
    (hpred : pred.toNat ≤ 32) (hlt : pred.toNat < bs.toNat)
    (hp : legalOrders bs.toNat pred.toNat pmin.toNat pmax.toNat = p :: ps)
    (hw : s.res.readRange 0 (bs.toNat - pred.toNat) = some words) (hus : (words.map sext32).map fold = us) :
    let best := choosePartition bs.toNat pred.toNat us p ps
    exec (.ricePartition pmin pmax pred bs) s = respondPartition (s.withPartition best.1 best.2 bs pred) := by
  subst hus
  obtain ⟨hlo, hhi, -⟩ := mem_legalOrders.mp (hp ▸ List.mem_cons_self)
  have hbs : 1 ≤ bs.toNat := by omega
  refine (gated_of_pass hs (by simp [hbs, hpred, hlt, hlo.trans hhi])).trans ?_
  simp only [hp]
  exact withResiduals_of_some hw

section Candidate

variable {m q : Nat} {us : List Nat}

/-- The state RICE_PARTITION leaves for the candidate of method `m` and order `q`. -/
def State.withCandidate (s : State) (us : List Nat) (m q : Nat) (bs : BitVec 16) (pred : BitVec 6) : State :=
  s.withPartition (candidate bs.toNat pred.toNat us m q).1 (candidate bs.toNat pred.toNat us m q).2 bs pred

theorem State.withCandidate_rpMethod (hm : m ≤ 1) : (s.withCandidate us m q bs pred).rpMethod.toNat = m :=
  toNat_ofNat_of_lt (by rw [candidate_method]; omega)

theorem State.withCandidate_rpOrder (hq : q ≤ 15) : (s.withCandidate us m q bs pred).rpOrder.toNat = q :=
  toNat_ofNat_of_lt (by rw [candidate_order]; omega)

theorem State.withCandidate_rpCost (hq : legalOrder bs.toNat pred.toNat q)
    (hlen : us.length = bs.toNat - pred.toNat) (hus : ∀ u ∈ us, u < 2 ^ 32) :
    (s.withCandidate us m q bs pred).rpCost.toNat = (candidate bs.toNat pred.toNat us m q).2 :=
  toNat_ofNat_of_lt ((candidate_cost_lt m hq bs.isLt hlen hus).trans (by decide))

/-- KTAB above the partitions of the choice keeps what it held (10_state.md R30, 20_memory.md R56). -/
theorem State.withCandidate_ktab_ge {j : Nat} (hj : 2 ^ q ≤ j) :
    (s.withCandidate us m q bs pred).ktab.read j = s.ktab.read j :=
  Memory.read_writeLow_ge _ _ _ (by rwa [List.length_map, length_candidate_params])

/-- The parameter stored for a partition is the least of the cheapest of the method's range (41_rice.md R139). -/
theorem State.withCandidate_ktabEntry_spec {j : Nat} (hj : j < 2 ^ q) :
    let slice := partitionSlice bs.toNat pred.toNat q j us
    let k := ((s.withCandidate us m q bs pred).ktabEntry j).toNat
    k ≤ methodKmax m ∧ (∀ i ≤ methodKmax m, riceCost slice k ≤ riceCost slice i) ∧
      ∀ i < k, riceCost slice k < riceCost slice i := by
  have hk : ((s.withCandidate us m q bs pred).ktabEntry j).toNat = _ := withPartition_ktabEntry us bs pred hj
  simp only [hk]
  obtain ⟨hmax, -, hle, hlt⟩ := bestParameter_spec (methodKmax m) (partitionSlice bs.toNat pred.toNat q j us)
  exact ⟨hmax, hle, hlt⟩

/-- The candidate's cost is the length of the section with the parameters stored in KTAB (41_rice.md R139). -/
theorem State.candidate_cost_eq_sectionCost (s : State) (us : List Nat) (m q : Nat) (bs : BitVec 16)
    (pred : BitVec 6) : (candidate bs.toNat pred.toNat us m q).2 =
      sectionCost m q (fun j => ((s.withCandidate us m q bs pred).ktabEntry j).toNat) bs.toNat pred.toNat us :=
  candidate_cost _ _ _ _ _ _ fun _ hj => withPartition_ktabEntry us bs pred hj

end Candidate

/-- RICE_PARTITION leaves the candidate of a method and a legal order of its range that is no dearer than any other, and
cheaper than those before it (41_rice.md R140). -/
theorem exec_ricePartition_of_holdsResiduals {rs : Nat → BitVec 32} (hs : s.fault = 0) (hpred : pred.toNat ≤ 32)
    (hlt : pred.toNat < bs.toNat)
    (hex : ∃ p, pmin.toNat ≤ p ∧ p ≤ pmax.toNat ∧ legalOrder bs.toNat pred.toNat p)
    (hres : s.holdsResiduals 0 (bs.toNat - pred.toNat) rs) :
    let us := foldedResiduals (bs.toNat - pred.toNat) rs
    let cost := fun m p => (candidate bs.toNat pred.toNat us m p).2
    ∃ m q, m ≤ 1 ∧ pmin.toNat ≤ q ∧ q ≤ pmax.toNat ∧ legalOrder bs.toNat pred.toNat q ∧
      exec (.ricePartition pmin pmax pred bs) s = respondPartition (s.withCandidate us m q bs pred) ∧
      ∀ m' p, m' ≤ 1 → pmin.toNat ≤ p → p ≤ pmax.toNat → legalOrder bs.toNat pred.toNat p →
        cost m q ≤ cost m' p ∧ (m' < m ∨ m' = m ∧ p < q → cost m q < cost m' p) := by
  obtain ⟨p₀, hlo₀, hhi₀, hlegal₀⟩ := hex
  obtain ⟨words, hw, hus⟩ := exists_words_of_holdsResiduals hres
  obtain ⟨p, ps, hp⟩ := List.exists_cons_of_ne_nil (List.ne_nil_of_mem (mem_legalOrders.mpr ⟨hlo₀, hhi₀, hlegal₀⟩))
  have hexec := exec_ricePartition_of_words hs hpred hlt hp hw hus
  obtain ⟨m, q, hm, hq, hc, hbest⟩ := choosePartition_spec bs.toNat pred.toNat
    (foldedResiduals (bs.toNat - pred.toNat) rs) p ps (hp ▸ legalOrders_sorted _ _ _ _)
  rw [hc] at hexec
  obtain ⟨hlo, hhi, hlegal⟩ := mem_legalOrders.mp (hp ▸ hq)
  exact ⟨m, q, hm, hlo, hhi, hlegal, hexec,
    fun m' p' hm' hlo' hhi' hlegal' => hbest m' hm' p' (hp ▸ mem_legalOrders.mpr ⟨hlo', hhi', hlegal'⟩)⟩

theorem length_foldedResiduals (count : Nat) (rs : Nat → BitVec 32) : (foldedResiduals count rs).length = count := by
  simp [foldedResiduals]

theorem foldedResiduals_lt (count : Nat) (rs : Nat → BitVec 32) : ∀ u ∈ foldedResiduals count rs, u < 2 ^ 32 := by
  intro u hu
  obtain ⟨i, -, rfl⟩ := List.mem_map.mp hu
  exact fold_sext32_lt (rs i)

/-- Settles O41: the candidate chosen is no dearer than any other, and each candidate no dearer than any parameters of
its method's range. -/
theorem ricePartitionIsExactOptimum : Obligations.RicePartitionIsExactOptimum := by
  intro pmin pmax pred bs s rs legal kmax us slice codeCost cost hs hpred hlt hex hres
  obtain ⟨m, q, hm, hlo, hhi, hlegal, hexec, hbest⟩ := exec_ricePartition_of_holdsResiduals hs hpred hlt hex hres
  rw [respondPartition_eq] at hexec
  refine ⟨_, hexec, rfl, ?_⟩
  simp only [State.answered_rpMethod, State.answered_rpOrder, State.answered_rpCost, State.answered_ktab,
    State.answered_ktabEntry, State.withCandidate_rpMethod hm, State.withCandidate_rpOrder hlegal.1,
    State.withCandidate_rpCost hlegal (length_foldedResiduals _ _) (foldedResiduals_lt _ _)]
  refine ⟨hlo, hhi, hlegal, fun j hj => State.withCandidate_ktabEntry_spec hj,
    fun j hj => State.withCandidate_ktab_ge hj, s.candidate_cost_eq_sectionCost us m q bs pred,
    fun m' p kt hm' hlo' hhi' hlegal' hkt => ?_⟩
  obtain ⟨hle, hstrict⟩ := hbest m' p hm' hlo' hhi' hlegal'
  have hcand := candidate_cost_le bs.toNat pred.toNat us m' p kt hkt
  exact ⟨hle.trans hcand, fun hbefore => (hstrict hbefore).trans_le hcand⟩

end Sys2Proof.Machine
end

section
/-! PROOFS. The bytes of a frame header (42_frame_header.md R161 to R167) and its CRC-8 (R163, R172). -/

namespace Sys2Proof.Machine

/-! ### Block size codes -/

/-- The sizes that have a code of their own (42_frame_header.md R161). -/
def blockSizeTable : List (Nat × Nat) :=
  (192, 1) :: (List.range' 2 4).map (fun c => (576 * 2 ^ (c - 2), c)) ++
    (List.range' 8 8).map fun c => (256 * 2 ^ (c - 8), c)

theorem mem_blockSizeTable {row : Nat × Nat} : row ∈ blockSizeTable ↔
    row = (192, 1) ∨ (∃ c, 2 ≤ c ∧ c ≤ 5 ∧ row = (576 * 2 ^ (c - 2), c)) ∨
      ∃ c, 8 ≤ c ∧ c ≤ 15 ∧ row = (256 * 2 ^ (c - 8), c) := by
  simp [blockSizeTable, List.mem_range'_1, eq_comm, Nat.lt_succ_iff, and_assoc]

theorem blockSizeCode_of_mem : ∀ row ∈ blockSizeTable, blockSizeCode row.1 = row.2 ∧ row.2 ≠ 0 := by decide

theorem blockSizeCode_of_not_mem {bs : Nat} (h : ∀ row ∈ blockSizeTable, bs ≠ row.1) :
    blockSizeCode bs = if bs ≤ 256 then 6 else 7 := by
  have hne : ∀ size ∈ [192, 576, 1152, 2304, 4608, 256, 512, 1024, 2048, 4096, 8192, 16384, 32768], bs ≠ size := by
    simpa [blockSizeTable, List.range'] using h
  simp only [List.forall_mem_cons] at hne
  simp [blockSizeCode, hne]

theorem blockSizeField_eq (bs : Nat) : blockSizeField bs =
    if blockSizeCode bs = 6 then [BitVec.ofNat 8 (bs - 1)]
    else if blockSizeCode bs = 7 then [BitVec.ofNat 8 ((bs - 1) >>> 8), BitVec.ofNat 8 ((bs - 1) % 256)] else [] := by
  unfold blockSizeField
  split <;> simp_all [bytes16]

/-- Settles O48: a size is in the table, or `blockSizeCode` is 6 or 7 by its size. -/
theorem blockSizeCodes : Obligations.BlockSizeCodes := by
  intro bs _ _
  have hcode {c : Nat} (hmem : (bs, c) ∈ blockSizeTable) := (blockSizeCode_of_mem _ hmem).1
  refine ⟨?_, fun c hlo hhi hbs => ?_, fun c hlo hhi hbs => ?_, fun h₁ h₂ h₃ => ?_, fun h6 h7 => ?_, ?_⟩
  · rintro rfl
    exact hcode (mem_blockSizeTable.mpr (.inl rfl))
  · exact hcode (mem_blockSizeTable.mpr (.inr (.inl ⟨c, hlo, hhi, by rw [hbs]⟩)))
  · exact hcode (mem_blockSizeTable.mpr (.inr (.inr ⟨c, hlo, hhi, by rw [hbs]⟩)))
  · have hnot : ∀ row ∈ blockSizeTable, bs ≠ row.1 := by
      intro row hrow
      rcases mem_blockSizeTable.mp hrow with rfl | ⟨c, hlo, hhi, rfl⟩ | ⟨c, hlo, hhi, rfl⟩
      · exact h₁
      · exact h₂ c hlo hhi
      · exact h₃ c hlo hhi
    refine ⟨fun h => ?_, fun h => ?_⟩
    · simp [blockSizeField_eq, blockSizeCode_of_not_mem hnot, h]
    · simp [blockSizeField_eq, blockSizeCode_of_not_mem hnot, show ¬ bs ≤ 256 by omega]
  · simp [blockSizeField_eq, h6, h7]
  · by_cases hmem : ∃ row ∈ blockSizeTable, bs = row.1
    · obtain ⟨row, hrow, rfl⟩ := hmem
      obtain ⟨hrowcode, hne⟩ := blockSizeCode_of_mem row hrow
      rwa [hrowcode]
    · push Not at hmem
      rw [blockSizeCode_of_not_mem hmem]
      split <;> decide

/-! ### Sample rate and bit depth codes -/

/-- The rates that have a code of their own (42_frame_header.md R162). -/
def rateTable : List (Nat × Nat) :=
  [(88200, 1), (176400, 2), (192000, 3), (8000, 4), (16000, 5), (22050, 6), (24000, 7), (32000, 8), (44100, 9),
    (48000, 10), (96000, 11)]

theorem rateCode_of_mem : ∀ row ∈ rateTable, rateCode row.1 = row.2 ∧ rateField row.1 = [] := by decide

theorem rateCode_of_not_mem {rate : Nat} (h : ∀ row ∈ rateTable, rate ≠ row.1) : rateCode rate =
    if rate % 1000 = 0 ∧ rate / 1000 ≤ 255 then 12
    else if rate % 10 = 0 ∧ rate / 10 ≤ 65535 then 14
    else if rate ≤ 65535 then 13
    else 0 := by
  simp only [rateTable, List.forall_mem_cons] at h
  simp [rateCode, h]

theorem rateField_eq (rate : Nat) : rateField rate =
    if rateCode rate = 12 then [BitVec.ofNat 8 (rate / 1000)]
    else if rateCode rate = 13 then [BitVec.ofNat 8 (rate >>> 8), BitVec.ofNat 8 (rate % 256)]
    else if rateCode rate = 14 then [BitVec.ofNat 8 ((rate / 10) >>> 8), BitVec.ofNat 8 (rate / 10 % 256)] else [] := by
  unfold rateField
  split <;> simp_all [bytes16]

/-- Settles O49: up to 192000 Hz the quotients of the kHz and tens-of-Hz rows always fit their fields. -/
theorem sampleRateCodes : Obligations.SampleRateCodes := by
  intro rate _ hmax table
  refine ⟨fun row hrow hrate => hrate ▸ rateCode_of_mem row hrow, fun hnot => ?_⟩
  have hkilo : rate / 1000 ≤ 255 := by omega
  have hten : rate / 10 ≤ 65535 := by omega
  rw [rateField_eq, rateCode_of_not_mem hnot]
  refine ⟨fun h => ?_, fun hne h => ?_, fun hne h => ?_, fun hne h => ?_⟩
  · simp [h, hkilo]
  · simp [hne, h, hten]
  · simp [hne, h, show rate % 1000 ≠ 0 by omega]
  · simp [hne, show ¬ rate ≤ 65535 by omega, show rate % 1000 ≠ 0 by omega]

/-- Settles O50: a depth that is none of the six literals takes the last row. -/
theorem bitDepthCodes : Obligations.BitDepthCodes := by
  refine ⟨rfl, rfl, rfl, rfl, rfl, rfl, fun bps _ _ hnot => ?_⟩
  simp only [List.mem_cons, List.not_mem_nil, or_false, not_or] at hnot
  simp [depthCode, hnot]

/-! ### The coded number -/

theorem continuationBytes_eq_map (v n : Nat) : continuationBytes v n =
    (List.range' 1 n).map fun i => BitVec.ofNat 8 (0x80 ||| (v >>> (6 * (n - i))) % 64) := by
  induction n with
  | zero => rfl
  | succ n ih =>
    have hshift : List.range' (1 + 1) n = (List.range' 1 n).map (· + 1) := List.range'_succ_left
    rw [continuationBytes, ih, List.range'_succ, hshift, List.map_cons, List.map_map]
    simp [Function.comp_def]

/-- The length of a coded number of more than one byte is the least that holds it (42_frame_header.md R165). -/
theorem codedLength_least {v : Nat} (hlo : 2 ^ 7 ≤ v) (hhi : v < 2 ^ 36) :
    2 ≤ codedLength v ∧ v < 2 ^ (5 * codedLength v + 1) ∧
      ∀ m, 2 ≤ m → m < codedLength v → 2 ^ (5 * m + 1) ≤ v := by
  unfold codedLength
  split_ifs
  · omega
  all_goals
    refine ⟨by decide, by omega, fun m hm hlt => ?_⟩
    interval_cases m <;> omega

/-- Settles O51: the lead byte, then the continuation bytes by their places. -/
theorem codedNumberBytes : Obligations.CodedNumberBytes := by
  intro v hv
  refine ⟨fun hone => ?_, fun hlo => ?_⟩
  · rw [codedNumber, codedLength, if_pos hone, if_pos rfl]
  · obtain ⟨htwo, hfits, hleast⟩ := codedLength_least hlo hv
    refine ⟨codedLength v, htwo, (codedLength_bounds v).2, hfits, hleast, ?_⟩
    rw [codedNumber, if_neg (by omega), continuationBytes_eq_map, leadByte]

/-! ### The CRC-8 -/

theorem crc8Shift_eq : crc8Shift = fun c : Byte => if c.getLsbD 7 then (c <<< 1) ^^^ 0x07 else c <<< 1 := by
  funext c
  rw [crc8Shift, BitVec.msb_eq_getLsbD_last]

/-- Settles O52: the model's eight nested shifts are the loop of eight. -/
theorem crc8IsTheSpecsLoop : Obligations.Crc8IsTheSpecsLoop := by
  refine ⟨rfl, fun bytes b => ?_, by decide +kernel, fun _ _ _ _ _ _ => rfl⟩
  rw [crc8_append_singleton, ← crc8Shift_eq]
  rfl

theorem length_frameHeaderBytes_bounds (strat bs rate ch bps num : Nat) :
    6 ≤ (frameHeaderBytes strat bs rate ch bps num).length ∧
      (frameHeaderBytes strat bs rate ch bps num).length ≤ 16 := by
  simpa [frameHeaderBytes] using headerBody_length_bounds strat bs rate ch bps num

/-- `HDR_LEN` shows the length of a header exactly (10_state.md R33). -/
theorem toNat_ofNat_length_frameHeaderBytes (strat bs rate ch bps num : Nat) :
    (BitVec.ofNat 5 (frameHeaderBytes strat bs rate ch bps num).length).toNat =
      (frameHeaderBytes strat bs rate ch bps num).length :=
  toNat_ofNat_of_lt (by have := (length_frameHeaderBytes_bounds strat bs rate ch bps num).2; omega)

/-- A complete header has CRC-8 0 (42_frame_header.md R172). -/
theorem crc8_frameHeaderBytes (strat bs rate ch bps num : Nat) :
    crc8 (frameHeaderBytes strat bs rate ch bps num) = 0 := by
  rw [frameHeaderBytes, crc8_append_singleton, crc8Byte_self]

theorem foldl_crc8Byte_injective (bytes : List Byte) : Function.Injective fun c => bytes.foldl crc8Byte c := by
  induction bytes with
  | nil => exact Function.injective_id
  | cons x bytes ih => exact fun a b h => crc8Byte_injective_left (ih h)

/-- A change of one byte changes the CRC: it shows in the CRC after that byte, and no later byte undoes it. -/
theorem foldl_crc8Byte_set_ne {bytes : List Byte} {i : Nat} {b b' : Byte} (hb : bytes[i]? = some b) (hne : b' ≠ b)
    (c : Byte) : (bytes.set i b').foldl crc8Byte c ≠ bytes.foldl crc8Byte c := by
  induction bytes generalizing i c with
  | nil => cases hb
  | cons x bytes ih =>
    cases i with
    | zero =>
      cases hb
      exact fun h => hne (crc8Byte_injective_right (foldl_crc8Byte_injective bytes h))
    | succ i => exact ih hb (crc8Byte c x)

theorem flip_bit_ne {j : Nat} (hj : j < 8) (b : Byte) : b ^^^ (1#8 <<< j) ≠ b := by
  have hbit : ∀ j < 8, 1#8 <<< j ≠ 0 := by decide
  exact fun h => hbit j hj (xor_left_eq_self_iff.mp h)

/-- Settles O53: the header appended ends with its CRC-8, and flipping a bit changes one byte. -/
theorem headerCrcDetectsSingleBitErrors : Obligations.HeaderCrcDetectsSingleBitErrors := by
  intro strat bs rate ch bps num s t h ht
  obtain ⟨-, -, -, -, -, -, -, -, -, rfl⟩ := effect_of_exec h ht
  have hcrc := crc8_frameHeaderBytes strat.toNat bs.toNat rate.toNat ch.toNat bps.toNat num.toNat
  refine ⟨_, rfl, ?_, hcrc, fun i j b hb hj => ?_⟩
  · exact toNat_ofNat_length_frameHeaderBytes _ _ _ _ _ _
  · exact fun h0 => foldl_crc8Byte_set_ne hb (flip_bit_ne hj b) 0 (h0.trans hcrc.symm)

end Sys2Proof.Machine
end

section
/-! PROOFS. FRAME_HEADER (42_frame_header.md R168, R169, R171) and SEQ_SET (R170): their encodings, when each faults,
and what it leaves. -/

namespace Sys2Proof.Machine

variable {s t : State}

section FrameHeader

variable (strat : BitVec 1) (bs : BitVec 16) (rate : BitVec 18) (ch : BitVec 4) (bps : BitVec 6) (num : BitVec 36)

theorem encode_frameHeader : encode (.frameHeader strat bs rate ch bps num) =
    ⟨0x38000000 ||| (rate.setWidth 32 <<< 8) ||| (ch.setWidth 32 <<< 4) ||| (strat.setWidth 32 <<< 3),
      (bps.setWidth 64 <<< 52) ||| (bs.setWidth 64 <<< 36) ||| num.setWidth 64⟩ := by
  have hcmd : 0x0E#6 ++ rate ++ ch ++ strat ++ 0#3 = (0x38000000 : BitVec 32) ||| (rate.setWidth 32 <<< 8) |||
      (ch.setWidth 32 <<< 4) ||| (strat.setWidth 32 <<< 3) := by
    rw [append_eq_shiftLeft_or]
    simp only [BitVec.setWidth_append_eq_shiftLeft_setWidth_or, BitVec.shiftLeft_or_distrib, ← BitVec.shiftLeft_add]
    exact BitVec.or_zero
  have harg : 0#6 ++ bps ++ bs ++ num =
      (bps.setWidth 64 <<< 52) ||| (bs.setWidth 64 <<< 36) ||| num.setWidth 64 := by
    rw [append_eq_shiftLeft_or]
    simp only [BitVec.setWidth_append_eq_shiftLeft_setWidth_or, BitVec.shiftLeft_or_distrib, ← BitVec.shiftLeft_add]
    simp
  rw [encode, hcmd, harg]
  rfl

/-- The header a FRAME_HEADER appends. -/
abbrev headerOf : List Byte := frameHeaderBytes strat.toNat bs.toNat rate.toNat ch.toNat bps.toNat num.toNat

/-- The checks of FRAME_HEADER before the capacity (42_frame_header.md R168). -/
def frameHeaderChecks (s : State) : List Check :=
  [(s.wstate = .opened, .state),
    (s.pbits = 0, .unaligned),
    (8000 ≤ rate.toNat ∧ rate.toNat ≤ 192000, .rate),
    (acceptedChannels ch.toNat, .channels),
    (1 ≤ bs.toNat, .empty),
    (4 ≤ bps.toNat ∧ bps.toNat ≤ 32, .bitDepth),
    (sequenceOk strat num s, .sequence)]

variable {strat bs rate ch bps num}

theorem exec_frameHeader_eq : exec (.frameHeader strat bs rate ch bps num) s =
    gate s fun _ => checked (frameHeaderChecks strat bs rate ch bps num s) s fun _ =>
      append (8 * (headerOf strat bs rate ch bps num).length)
        (fun _ => bytesToBits (headerOf strat bs rate ch bps num)) s
        fun s => respondBitLen (s.withHeader (headerOf strat bs rate ch bps num) strat bs num) := rfl

/-- A FRAME_HEADER whose eight checks pass completes. -/
theorem exec_frameHeader_of_fits (hs : s.fault = 0)
    (hpass : ∀ chk ∈ frameHeaderChecks strat bs rate ch bps num s, chk.1 = true)
    (hfit : ¬ s.exceedsCapacity (8 * (headerOf strat bs rate ch bps num).length)) :
    exec (.frameHeader strat bs rate ch bps num) s = .next
      ((({ s with out := s.out ++ bytesToBits (headerOf strat bs rate ch bps num) } : State).withHeader
        (headerOf strat bs rate ch bps num) strat bs num).answered
        (BitVec.ofNat 64 (s.bitLen + 8 * (headerOf strat bs rate ch bps num).length))) := by
  have h := exec_frameHeader_eq.trans ((gated_of_pass hs hpass).trans (append_of_fits hfit))
  rw [respondBitLen, respond_eq] at h
  obtain ⟨-, -, -, -, -, -, -, -, -, ht⟩ := effect_of_exec h hs
  rw [h, ht]

/-- The checks before the capacity, as the statements write them. -/
theorem frameHeaderChecks_pass (hopen : s.wstate = .opened) (haligned : s.out.length % 8 = 0)
    (hrate : 8000 ≤ rate.toNat) (hrate' : rate.toNat ≤ 192000) (hch : ch.toNat ∈ [0, 1, 8, 9, 10])
    (hbs : 1 ≤ bs.toNat) (hbps : 4 ≤ bps.toNat) (hbps' : bps.toNat ≤ 32) (hfixed : strat = 0 → num.toNat < 2 ^ 31)
    (hstrat : s.seqStrat = 0 ∨ s.seqStrat.toNat = strat.toNat + 1) (hnext : num.toNat = s.seqNext.toNat) :
    ∀ chk ∈ frameHeaderChecks strat bs rate ch bps num s, chk.1 = true := by
  have hch' : acceptedChannels ch.toNat := by simpa using hch
  simp only [frameHeaderChecks, List.forall_mem_cons, decide_eq_true_eq]
  exact ⟨hopen, haligned, ⟨hrate, hrate'⟩, hch', hbs, ⟨hbps, hbps'⟩, ⟨hfixed, hstrat, hnext⟩, by simp⟩

end FrameHeader

/-- The codes of a list of checks as a chain of conditions: each condition says that its check fails, and the chain goes
on with the checks after one that passes (60_exceptions.md R225). -/
theorem checked_faults_cons {p q : Prop} [Decidable p] [Decidable q] {c : FaultCode} {rest : List Check}
    {body : Unit → Result} {code : BitVec 4} (hs : s.fault = 0) (hq : q ↔ ¬ p)
    (hrest : p → code ≠ 0 → checked rest s body = .next (s.faulted code)) :
    (if q then c.code else code) ≠ 0 →
      checked ((p, c) :: rest) s body = .next (s.faulted (if q then c.code else code)) := by
  rw [checked_cons]
  by_cases hp : p
  · rw [if_neg (by simp [hq, hp]), if_pos (by simp [hp])]
    exact hrest hp
  · rw [if_pos (hq.mpr hp), if_neg (by simp [hp])]
    exact fun _ => raiseFault_of_clear c hs

/-- Settles O54: the chain of codes follows the list of checks, and the capacity comes last. -/
theorem frameHeaderFaults : Obligations.FrameHeaderFaults := by
  intro strat bs rate ch bps num s hs
  refine ⟨encode_frameHeader strat bs rate ch bps num, ?_⟩
  rw [exec_frameHeader_eq, gate_of_clear _ hs]
  refine checked_faults_cons (c := .state) hs (by cases s.wstate <;> simp) fun _ => ?_
  refine checked_faults_cons (c := .unaligned) hs Iff.rfl fun _ => ?_
  refine checked_faults_cons (c := .rate) hs (by omega) fun _ => ?_
  refine checked_faults_cons (c := .channels) hs (by simp) fun _ => ?_
  refine checked_faults_cons (c := .empty) hs (by omega) fun _ => ?_
  refine checked_faults_cons (c := .bitDepth) hs (by omega) fun _ => ?_
  refine checked_faults_cons (c := .sequence) hs
    (by simp only [sequenceOk, not_and_or, not_or, Classical.not_imp, not_lt, ne_eq]) fun _ => ?_
  rw [checked_nil]
  split
  · exact fun _ => append_of_full_of_clear hs ‹_›
  · exact absurd rfl

/-- Settles O55: the header's bytes written out, and its last byte the CRC-8 of the others. -/
theorem frameHeaderEffect : Obligations.FrameHeaderEffect := by
  intro strat bs rate ch bps num s bc sc body header hs hopen haligned hrate hrate' hch hbs hbps hbps' hfixed hstrat
    hnext hfit
  have hbody : body = headerBody strat.toNat bs.toNat rate.toNat ch.toNat bps.toNat num.toNat := by
    rw [headerBody, blockSizeField_eq, rateField_eq]
  have hheader : header = headerOf strat bs rate ch bps num := by rw [headerOf, frameHeaderBytes, ← hbody]
  have hpass := frameHeaderChecks_pass hopen haligned hrate hrate' hch hbs hbps hbps' hfixed hstrat hnext
  rw [hheader] at hfit ⊢
  rw [exec_frameHeader_of_fits hs hpass hfit.not_gt, State.withHeader, frameHeaderBytes_getLastD, ← hbody]
  rfl

/-- Settles O56: from an empty buffer at most 16 bytes are complete after the header. -/
theorem headerAlwaysFitsEmptyBuffer : Obligations.HeaderAlwaysFitsEmptyBuffer := by
  refine ⟨length_frameHeaderBytes_bounds, ?_⟩
  intro strat bs rate ch bps num s hlegal hs hopen hempty hrate hrate' hch hbs hbps hbps' hfixed hstrat hnext
  have hlen : (headerOf strat bs rate ch bps num).length ≤ 16 := (length_frameHeaderBytes_bounds _ _ _ _ _ _).2
  have hbits : s.bitLen = 0 := by rw [State.bitLen, hempty, List.length_nil]
  have hfit : ¬ s.exceedsCapacity (8 * (headerOf strat bs rate ch bps num).length) := by
    rw [State.exceedsCapacity, hbits]
    omega
  have hpass := frameHeaderChecks_pass hopen (by simp [hempty]) hrate hrate' hch hbs hbps hbps' hfixed hstrat hnext
  refine ⟨_, exec_frameHeader_of_fits hs hpass hfit, hs, ?_⟩
  rw [State.answered_hdrLen, State.withHeader_hdrLen, toNat_ofNat_length_frameHeaderBytes]
  simp only [State.outLen, State.bitLen, State.answered_out, State.withHeader_out, hempty, List.nil_append,
    length_bytesToBits]
  exact Nat.mul_div_cancel_left _ (by decide)

/-- Settles O57: a header latches its strategy as 1 or 2, and the next number, which its 37 bits hold. -/
theorem headersFollowTheSequence : Obligations.HeadersFollowTheSequence := by
  intro strat strat' bs bs' rate rate' ch ch' bps bps' num num' s t u h ht h' hu
  obtain ⟨-, -, -, -, -, -, -, -, -, rfl⟩ := effect_of_exec h ht
  obtain ⟨-, -, -, -, -, -, -, ⟨-, hstrat, hnext⟩, -⟩ := effect_of_exec h' hu
  have hlatched : ∀ a b : BitVec 1, BitVec.ofNat 2 (a.toNat + 1) = 0 ∨
      (BitVec.ofNat 2 (a.toNat + 1)).toNat = b.toNat + 1 → b = a := by decide
  have hadd : (if strat = 0 then 1 else bs.toNat) < 2 ^ 16 := by have := bs.isLt; split <;> omega
  refine ⟨hlatched _ _ hstrat, hnext.trans (toNat_ofNat_of_lt ?_)⟩
  have := num.isLt
  omega

/-! ### SEQ_SET -/

theorem encode_seqSet (sstrat : BitVec 2) (next : BitVec 36) :
    encode (.seqSet sstrat next) = ⟨0x3C000000 ||| sstrat.setWidth 32, next.setWidth 64⟩ := by
  rw [encode, append_eq_or_setWidth, zero_append_eq_setWidth]
  rfl

/-- Settles O58: strategy 3 fails the first check, and a fixed strategy with a number past 31 bits the second. -/
theorem seqSetRule : Obligations.SeqSetRule := by
  intro sstrat next s hs
  refine ⟨encode_seqSet sstrat next, ?_, ?_, fun hne hfixed => ?_⟩
  · rintro rfl
    exact gated_of_failure (c := .illegal) hs rfl
  · rintro rfl hbig
    exact gated_of_failure (c := .sequence) hs (by simpa [firstFailure] using hbig)
  · have hle : ∀ b : BitVec 2, b ≠ 3 → b.toNat ≤ 2 := by decide
    exact gated_of_pass hs (by simpa [hle sstrat hne, ← imp_iff_not_or] using hfixed)

end Sys2Proof.Machine
end

section
/-! PROOFS. The host access commands (43_host_access.md R190 to R192): their encodings, answers and faults. -/

namespace Sys2Proof.Laws

open Sys2Proof

/-- A transaction with its row's `CMD` and a reserved `ARG` bit set is illegal (30_encoding.md R72). -/
theorem decode_of_reservedArg {t : Transaction} {n : Nat} {r : OpcodeRow} (hr : opcodeTable[n]? = some r)
    (hc : t.cmd &&& r.mask = r.pattern) (ha : t.arg &&& r.argZero ≠ 0) : decode t = .error .reservedArgBits := by
  simp only [decode, opcodeOf_of_masked hr hc, find_row hr, hc, ne_eq, not_true_eq_false, if_false, if_pos ha]

end Sys2Proof.Laws

namespace Sys2Proof.Machine

variable {s : State}

/-! ### NOP -/

/-- Settles O21: NOP answers without a check, and its row reserves every bit of `ARG`. -/
theorem nopRule : Obligations.NopRule := by
  intro s
  refine ⟨rfl, respond_eq 0 s, fun arg harg => ?_⟩
  have hreserved : arg &&& BitVec.allOnes 64 ≠ 0 := by rwa [BitVec.and_allOnes]
  exact Laws.decode_of_reservedArg (n := 0) rfl BitVec.zero_and hreserved

/-! ### READ_REG -/

theorem encode_readReg (reg : BitVec 8) : encode (.readReg reg) = ⟨0x1C000000 ||| reg.setWidth 32, 0⟩ := by
  rw [encode, append_eq_or_setWidth]
  rfl

theorem State.exists_register_of_le {n : Nat} (s : State) (hn : n ≤ 0x0E) : ∃ v, s.register n = some v :=
  Option.ne_none_iff_exists'.mp fun h => hn.not_gt ((s.register_eq_none_iff n).mp h)

/-- A register that shows a number within its width answers that number (10_state.md R36). -/
theorem exec_readReg_of_fits {reg : BitVec 8} {w n : Nat} (h : s.register reg.toNat = some (zext64 (BitVec.ofNat w n)))
    (hn : n < 2 ^ w) : exec (.readReg reg) s = .next (s.answered (BitVec.ofNat 64 n)) := by
  rw [exec_readReg_of_some h, zext64_ofNat hn, respond_eq]

/-- `PACC` fits its 7 bits (10_state.md R22). -/
theorem State.pacc_lt_128 (s : State) : s.pacc < 2 ^ 7 := by
  have hp : s.pbits ≤ 7 := Nat.le_of_lt_succ (Nat.mod_lt _ (by decide))
  exact s.pacc_lt.trans_le (Nat.pow_le_pow_right (by decide) hp)

/-- Settles O22: 12 of the registers are answered as they stand; OUT_LEN, PACC and BITLEN are numbers that fit their
widths; beyond 0x0E there is no register. -/
theorem readRegRule : Obligations.ReadRegRule := by
  intro reg s hbits
  have houtLen : s.outLen < 2 ^ 32 := Nat.div_lt_of_lt_mul hbits
  refine ⟨encode_readReg reg, fun hle => ?_, rfl, exec_readReg_of_fits rfl houtLen,
    exec_readReg_of_fits rfl s.pacc_lt_128, exec_readReg_of_fits rfl hbits, rfl, rfl, rfl, rfl, rfl, rfl, rfl, rfl, rfl,
    rfl, rfl, fun hgt hs => ?_, fun hgt hs => ?_⟩
  · obtain ⟨v, hv⟩ := s.exists_register_of_le hle
    exact ⟨v, exec_readReg_of_some hv⟩
  · exact (exec_readReg_of_none hgt).trans (raiseFault_of_clear .illegal hs)
  · exact (exec_readReg_of_none hgt).trans (raiseFault_of_faulted .illegal hs)

/-! ### READ_OUT -/

theorem encode_readOut (addr : BitVec 32) : encode (.readOut addr) = ⟨0x18000000, addr.setWidth 64⟩ := by
  rw [encode, zero_append_eq_setWidth]
  rfl

/-- Settles O24: READ_OUT has the one check that the byte is complete. -/
theorem readOutRule : Obligations.ReadOutRule := by
  intro addr s
  refine ⟨encode_readOut addr, fun hlt => exec_readOut_of_lt hlt, fun hge hs => ?_, fun hge hs => ?_⟩
  · exact (exec_readOut_of_not_lt hge.not_gt).trans (raiseFault_of_clear .range hs)
  · exact (exec_readOut_of_not_lt hge.not_gt).trans (raiseFault_of_faulted .range hs)

end Sys2Proof.Machine
end

section
/-! PROOFS. The exceptions (60_exceptions.md R220 to R224, R226, R234): what raises ILLEGAL, what FAULT suppresses, and
what a step does to FAULT. -/

namespace Sys2Proof.Laws

open Sys2Proof

/-- The opcode of a legal transaction is not reserved (30_encoding.md R71). -/
theorem opcode_lt_of_decode {t : Transaction} {i : Instr} (h : decode t = .ok i) : (opcodeOf t.cmd).toNat < 0x10 := by
  obtain ⟨n, r, hr, hcmd, -⟩ := row_of_decode h
  rw [← index_of_masked hr hcmd]
  exact row_index_lt hr

/-- A row's `CMD` match is its opcode, and 0 below it. -/
theorem pattern_operandBits {n : Nat} {r : OpcodeRow} (hr : opcodeTable[n]? = some r) :
    r.pattern &&& ~~~ 0xFC000000#32 = 0 := by
  have hn := row_index_lt hr
  interval_cases n <;> cases hr <;> decide

/-- The reserved bits of a legal transaction are 0, in `CMD` and in `ARG` (30_encoding.md R72): its opcode's row is the
one that decodes it. -/
theorem reservedBits_of_decode {t : Transaction} {i : Instr} {r : OpcodeRow} (h : decode t = .ok i)
    (hmem : r ∈ opcodeTable) (hop : opcodeOf r.pattern = opcodeOf t.cmd) :
    t.cmd &&& ~~~ 0xFC000000#32 &&& r.mask = 0 ∧ t.arg &&& r.argZero = 0 := by
  obtain ⟨n, r', hr', hcmd, harg, -⟩ := row_of_decode h
  obtain ⟨m, hr⟩ := List.getElem?_of_mem hmem
  have hmn : m = n := by rw [← opcodeOf_pattern hr, hop, ← index_of_masked hr' hcmd]
  subst hmn
  cases hr.symm.trans hr'
  refine ⟨?_, harg⟩
  rw [BitVec.and_assoc, BitVec.and_comm _ r.mask, ← BitVec.and_assoc, hcmd, pattern_operandBits hr]

end Sys2Proof.Laws

namespace Sys2Proof.Machine

variable {s t : State}

/-! ### The common checks -/

/-- Settles O7: a legal transaction has no reserved opcode and no reserved bit, and any other raises ILLEGAL. -/
theorem illegalTransactionRaisesIllegal : Obligations.IllegalTransactionRaisesIllegal := by
  intro s tx rest hin hillegal
  cases hdec : decode tx with
  | error e =>
    rw [step_of_decode_error hin hdec]
    exact ⟨fun hs => raiseFault_of_clear .illegal hs, fun hs => raiseFault_of_faulted .illegal hs⟩
  | ok i =>
    rcases hillegal with hop | ⟨r, hmem, hop, hreserved⟩
    · exact absurd (Laws.opcode_lt_of_decode hdec) hop.not_gt
    · obtain ⟨hcmd, harg⟩ := Laws.reservedBits_of_decode hdec hmem hop
      exact absurd harg (hreserved.resolve_left (not_not_intro hcmd))

/-- Settles O13: the gate answers for the other twelve commands; each read answers, or fails a check that raises no new
code. -/
theorem suppressedWhileFaulted : Obligations.SuppressedWhileFaulted := by
  intro s hs
  refine ⟨fun i hi => exec_of_faulted hi hs, respond_eq 0 s, fun reg v hv => exec_readReg_of_some hv, fun reg hv => ?_,
    fun addr hlt => exec_readOut_of_lt hlt, fun addr hge => ?_, fun idx hv hlt => exec_readKtab_of_lt hv hlt,
    fun idx hfail => ?_⟩
  · have hreg : 0x0E < reg.toNat := (s.register_eq_none_iff reg.toNat).mp hv
    exact (exec_readReg_of_none hreg).trans (raiseFault_of_faulted .illegal hs)
  · exact (exec_readOut_of_not_lt hge.not_gt).trans (raiseFault_of_faulted .range hs)
  · obtain ⟨c, hc⟩ := exec_readKtab_of_failure hfail
    exact hc.trans (raiseFault_of_faulted c hs)

/-! ### What a step does to FAULT -/

/-- FAULT stays as it was, or it was 0 and a fault that is not CRC is taken, with nothing else changed
(60_exceptions.md R221, R224, R226). -/
def KeepsOrTakesFault (s t : State) : Prop :=
  t.fault = s.fault ∨ s.fault = 0 ∧ ∃ c, c ≠ FaultCode.crc ∧ t = s.faulted c.code

theorem raiseFault_keepsOrTakesFault {c : FaultCode} (hc : c ≠ .crc) (h : raiseFault c s = .next t) :
    KeepsOrTakesFault s t := by
  rcases raiseFault_cases c h with ⟨hs, rfl⟩ | ⟨-, rfl⟩
  · exact .inr ⟨hs, c, hc, rfl⟩
  · exact .inl rfl

theorem exec_keepsOrTakesFault {i : Instr} (h : exec i s = .next t) : KeepsOrTakesFault s t := by
  rcases exec_cases h with ⟨-, rfl⟩ | htaken | ⟨-, he⟩
  · exact .inl rfl
  · exact .inr htaken
  · exact .inl (effect_fault he)

/-- A step over a transaction, legal or not. -/
theorem step_keepsOrTakesFault {tx : Transaction} {rest : List HostInput} (hin : s.inputs = .command tx :: rest)
    (h : step s = .next t) : KeepsOrTakesFault { s with inputs := rest } t := by
  cases hdec : decode tx with
  | ok i => exact exec_keepsOrTakesFault ((step_of_decode_ok hin hdec).symm.trans h)
  | error e => exact raiseFault_keepsOrTakesFault (by decide) ((step_of_decode_error hin hdec).symm.trans h)

/-- Settles O14: a step over a transaction that does not keep FAULT takes a fault, and the codes but CRC are 1 to 13. -/
theorem faultsAreAllOrNothing : Obligations.FaultsAreAllOrNothing := by
  intro s t tx rest hin h hne
  obtain ⟨hs, c, hc, rfl⟩ := (step_keepsOrTakesFault hin h).resolve_left hne
  obtain ⟨hlo, hhi⟩ := FaultCode.code_bounds hc
  exact ⟨hs, hlo, hhi, rfl⟩

/-- Settles O15: only a step over a transaction could take a fault, and with FAULT nonzero it takes none. -/
theorem faultIsStickyUntilReset : Obligations.FaultIsStickyUntilReset := by
  intro s t hs h
  rcases step_cases h with ⟨hin, rfl⟩ | ⟨rest, hin, rfl⟩ | ⟨tx, rest, hin, -⟩
  · refine ⟨fun ⟨rest, hreset⟩ => ?_, fun _ => rfl⟩
    cases hin.symm.trans hreset
  · exact ⟨fun _ => rfl, fun hno => absurd ⟨rest, hin⟩ hno⟩
  · refine ⟨fun ⟨rest', hreset⟩ => ?_, fun _ => ?_⟩
    · cases hin.symm.trans hreset
    · exact (step_keepsOrTakesFault hin h).resolve_right fun ⟨hclear, _⟩ => hs hclear

theorem State.nextInput_of_nil (hin : s.inputs = []) : s.nextInput = none := by
  unfold State.nextInput
  rw [hin]

/-- Settles O8: with no next input `step` answers the state itself. -/
theorem idleKeepsState : Obligations.IdleKeepsState := by
  intro s hin
  unfold step
  rw [State.nextInput_of_nil hin]

end Sys2Proof.Machine
end

section
/-! PROOFS. The reset event (70_reset_and_hazards.md R250) and RICE_EMIT after LOAD_RES (R255). -/

namespace Sys2Proof.Machine

/-- The arm of `step` for the reset event. -/
theorem step_of_reset {s : State} {rest : List HostInput} (hin : s.inputs = .reset :: rest) :
    step s = .next ({ s with inputs := rest } : State).afterReset := by
  unfold step
  rw [State.nextInput_of_cons hin]

/-- Settles O9: the event is taken, and `State.afterReset` holds the values of R40 field by field. -/
theorem resetEventGivesResetValues : Obligations.ResetEventGivesResetValues := by
  intro s rest hin
  exact step_of_reset hin

/-- Settles O47: LOAD_RES leaves `RP_VALID` 0 and WSTATE as it was, and so RICE_EMIT passes its first check and fails
its second. -/
theorem emitAfterLoadRaisesState : Obligations.EmitAfterLoadRaisesState := by
  intro idx val s t ho h ht
  obtain ⟨-, -, rfl⟩ := effect_of_exec h ht
  obtain ⟨-, -, hinvalid, -⟩ := riceEmitRule _ (fun _ => 0) ht
  exact hinvalid ho rfl

end Sys2Proof.Machine
end
